-- ==== Sys2Proof/Word.lean ====
section
/-! DEFINITION. The word types of the core (spec/00_scope.md R3, R4): what the spec treats as bits. -/

namespace Sys2Proof

/-- A register, a memory byte, an immediate `kk`, a timer: 8 bits (R3, R10, R19, R20). -/
abbrev Byte := BitVec 8

/-- An instruction word: 16 bits (R60). -/
abbrev Word := BitVec 16

/-- An address: `PC_WIDTH` = `I_WIDTH` = `STACK_ENTRY_WIDTH` = 12 bits (R4), and the field `nnn` (R62). -/
abbrev Addr := BitVec 12

/-- A 4-bit register selector `x` or `y`, 0 to 15 (R62, R63). -/
abbrev RegIx := BitVec 4

/-- The 4-bit row count `n` of DRW (R62), and any other nibble of an instruction word (R61). -/
abbrev Nibble := BitVec 4

/-- The 16-key vector: bit `i` is 1 when key `i` is down (R180). -/
abbrev Keys := BitVec 16

end Sys2Proof
end

