-- ==== Sys2Proof/Syntax.lean ====
section
/-! DEFINITION. The instructions: one constructor per row of spec/opcode_table.json (spec/30_encoding.md R64),
in the table's order. Operands are the fields of R62 that the instruction uses; a field the spec calls ignored
(`y` of SHR and SHL, the low nibble of 5xy? and 9xy?) is no operand, since any value of it decodes to the same
instruction (R67). -/

namespace Sys2Proof

inductive Instr where
  /-- 00E0 CLS: clear the screen (R170). -/
  | cls
  /-- 00EE RET: return from subroutine (R101). -/
  | ret
  /-- 0nnn SYS nnn: an unrecognized opcode, a no-op (R89). -/
  | sys (nnn : Addr)
  /-- 1nnn JP nnn (R102). -/
  | jp (nnn : Addr)
  /-- 2nnn CALL nnn (R103). -/
  | call (nnn : Addr)
  /-- 3xkk SE Vx, kk (R104). -/
  | seVxKk (x : RegIx) (kk : Byte)
  /-- 4xkk SNE Vx, kk (R105). -/
  | sneVxKk (x : RegIx) (kk : Byte)
  /-- 5xy0 SE Vx, Vy (R106). -/
  | seVxVy (x y : RegIx)
  /-- 6xkk LD Vx, kk (R120). -/
  | ldVxKk (x : RegIx) (kk : Byte)
  /-- 7xkk ADD Vx, kk (R121). -/
  | addVxKk (x : RegIx) (kk : Byte)
  /-- 8xy0 LD Vx, Vy (R122). -/
  | ldVxVy (x y : RegIx)
  /-- 8xy1 OR Vx, Vy (R123). -/
  | orVxVy (x y : RegIx)
  /-- 8xy2 AND Vx, Vy (R124). -/
  | andVxVy (x y : RegIx)
  /-- 8xy3 XOR Vx, Vy (R125). -/
  | xorVxVy (x y : RegIx)
  /-- 8xy4 ADD Vx, Vy (R126). -/
  | addVxVy (x y : RegIx)
  /-- 8xy5 SUB Vx, Vy (R127). -/
  | subVxVy (x y : RegIx)
  /-- 8xy6 SHR Vx (R128). -/
  | shrVx (x : RegIx)
  /-- 8xy7 SUBN Vx, Vy (R129). -/
  | subnVxVy (x y : RegIx)
  /-- 8xyE SHL Vx (R130). -/
  | shlVx (x : RegIx)
  /-- 9xy0 SNE Vx, Vy (R107). -/
  | sneVxVy (x y : RegIx)
  /-- Annn LD I, nnn (R150). -/
  | ldINnn (nnn : Addr)
  /-- Bnnn JP V0, nnn (R108). -/
  | jpV0Nnn (nnn : Addr)
  /-- Cxkk RND Vx, kk (R140). -/
  | rndVxKk (x : RegIx) (kk : Byte)
  /-- Dxyn DRW Vx, Vy, n (R171). -/
  | drwVxVyN (x y : RegIx) (n : Nibble)
  /-- Ex9E SKP Vx (R181). -/
  | skpVx (x : RegIx)
  /-- ExA1 SKNP Vx (R182). -/
  | sknpVx (x : RegIx)
  /-- Fx07 LD Vx, DT (R193). -/
  | ldVxDt (x : RegIx)
  /-- Fx0A LD Vx, K (R183). -/
  | ldVxK (x : RegIx)
  /-- Fx15 LD DT, Vx (R194). -/
  | ldDtVx (x : RegIx)
  /-- Fx18 LD ST, Vx (R195). -/
  | ldStVx (x : RegIx)
  /-- Fx1E ADD I, Vx (R151). -/
  | addIVx (x : RegIx)
  /-- Fx29 LD F, Vx (R152). -/
  | ldFVx (x : RegIx)
  /-- Fx33 LD B, Vx (R153). -/
  | ldBVx (x : RegIx)
  /-- Fx55 LD [I], Vx (R154). -/
  | ldMemVx (x : RegIx)
  /-- Fx65 LD Vx, [I] (R155). -/
  | ldVxMem (x : RegIx)
deriving DecidableEq, Repr

end Sys2Proof
end

