-- ==== Sys2Proof/WellFormed.lean ====
section
/-! DEFINITION. Which terms of `Instr` stand for an instruction of the table. Every operand field has the exact
width of its encoding field (R62), so the one check left is SYS against CLS and RET: the words 0x00E0 and 0x00EE
are not SYS (spec/30_encoding.md R64 row 3, R65). -/

namespace Sys2Proof

/-- True when the instruction has an encoding of its own: SYS with operand 0x0E0 or 0x0EE has none, its word
being CLS or RET (R65: "0x00E0 is CLS, 0x00EE is RET, every other 0nnn is SYS"). -/
def Instr.wellFormed : Instr → Bool
  | .sys nnn => nnn != 0x0E0 && nnn != 0x0EE
  | .cls | .ret | .jp _ | .call _ | .seVxKk _ _ | .sneVxKk _ _ | .seVxVy _ _ | .ldVxKk _ _ | .addVxKk _ _
  | .ldVxVy _ _ | .orVxVy _ _ | .andVxVy _ _ | .xorVxVy _ _ | .addVxVy _ _ | .subVxVy _ _ | .shrVx _
  | .subnVxVy _ _ | .shlVx _ | .sneVxVy _ _ | .ldINnn _ | .jpV0Nnn _ | .rndVxKk _ _ | .drwVxVyN _ _ _
  | .skpVx _ | .sknpVx _ | .ldVxDt _ | .ldVxK _ | .ldDtVx _ | .ldStVx _ | .addIVx _ | .ldFVx _ | .ldBVx _
  | .ldMemVx _ | .ldVxMem _ => true

/-- The well-formedness check as a proposition. -/
abbrev Instr.WellFormed (i : Instr) : Prop := i.wellFormed = true

end Sys2Proof
end

