-- ==== Sys2Proof/Decode.lean ====
section
/-! DEFINITION. Fetching bytes to an instruction and back (spec/30_encoding.md R60 to R67). `decodeWord` is the
dispatch of R65; what it rejects, by name, is the unrecognized set of R66 less the SYS row. `encode` writes the
canonical word of an instruction from the patterns of R64. -/

namespace Sys2Proof

/-- Why bytes are no instruction of the table. -/
inductive Reject where
  /-- The word reaches no row of R64 (R66). A core that fetches it executes a no-op (R90): no stop. -/
  | unrecognized (w : Word)
  /-- Fewer than the two bytes of an instruction (R60). A step never meets it: its fetch is two bytes or the
  fault FetchRange (R43). -/
  | truncated
deriving DecidableEq, Repr

/-- The primary opcode `n3 = w[15:12]` (R61, R62). -/
def fieldN3 (w : Word) : Nibble := w.extractLsb' 12 4
/-- The selector `x = w[11:8]` (R62). -/
def fieldX (w : Word) : RegIx := w.extractLsb' 8 4
/-- The selector `y = w[7:4]` (R62). -/
def fieldY (w : Word) : RegIx := w.extractLsb' 4 4
/-- The count or sub-opcode `n = w[3:0]` (R62). -/
def fieldN (w : Word) : Nibble := w.extractLsb' 0 4
/-- The immediate or sub-opcode `kk = w[7:0]` (R62). -/
def fieldKk (w : Word) : Byte := w.extractLsb' 0 8
/-- The address operand `nnn = w[11:0]` (R62). -/
def fieldNnn (w : Word) : Addr := w.extractLsb' 0 12

/-- Family 0: the whole word is tested; every word but 0x00E0 and 0x00EE is SYS (R65). -/
def decodeFamily0 (w : Word) : Instr :=
  if w = 0x00E0 then .cls else if w = 0x00EE then .ret else .sys (fieldNnn w)

/-- Family 8: the low nibble is tested (R65). -/
def decodeFamily8 (w : Word) : Except Reject Instr :=
  match (fieldN w).toNat with
  | 0x0 => .ok (.ldVxVy (fieldX w) (fieldY w))
  | 0x1 => .ok (.orVxVy (fieldX w) (fieldY w))
  | 0x2 => .ok (.andVxVy (fieldX w) (fieldY w))
  | 0x3 => .ok (.xorVxVy (fieldX w) (fieldY w))
  | 0x4 => .ok (.addVxVy (fieldX w) (fieldY w))
  | 0x5 => .ok (.subVxVy (fieldX w) (fieldY w))
  | 0x6 => .ok (.shrVx (fieldX w))
  | 0x7 => .ok (.subnVxVy (fieldX w) (fieldY w))
  | 0xE => .ok (.shlVx (fieldX w))
  | _ => .error (.unrecognized w)

/-- Family E: the low byte is tested (R65). -/
def decodeFamilyE (w : Word) : Except Reject Instr :=
  match (fieldKk w).toNat with
  | 0x9E => .ok (.skpVx (fieldX w))
  | 0xA1 => .ok (.sknpVx (fieldX w))
  | _ => .error (.unrecognized w)

/-- Family F: the low byte is tested (R65). -/
def decodeFamilyF (w : Word) : Except Reject Instr :=
  match (fieldKk w).toNat with
  | 0x07 => .ok (.ldVxDt (fieldX w))
  | 0x0A => .ok (.ldVxK (fieldX w))
  | 0x15 => .ok (.ldDtVx (fieldX w))
  | 0x18 => .ok (.ldStVx (fieldX w))
  | 0x1E => .ok (.addIVx (fieldX w))
  | 0x29 => .ok (.ldFVx (fieldX w))
  | 0x33 => .ok (.ldBVx (fieldX w))
  | 0x55 => .ok (.ldMemVx (fieldX w))
  | 0x65 => .ok (.ldVxMem (fieldX w))
  | _ => .error (.unrecognized w)

/-- The decoder (R65): the first nibble alone for 1 to 7, 9 and A to D, the rest of the word where ambiguous. -/
def decodeWord (w : Word) : Except Reject Instr :=
  match (fieldN3 w).toNat with
  | 0x0 => .ok (decodeFamily0 w)
  | 0x1 => .ok (.jp (fieldNnn w))
  | 0x2 => .ok (.call (fieldNnn w))
  | 0x3 => .ok (.seVxKk (fieldX w) (fieldKk w))
  | 0x4 => .ok (.sneVxKk (fieldX w) (fieldKk w))
  | 0x5 => .ok (.seVxVy (fieldX w) (fieldY w))
  | 0x6 => .ok (.ldVxKk (fieldX w) (fieldKk w))
  | 0x7 => .ok (.addVxKk (fieldX w) (fieldKk w))
  | 0x8 => decodeFamily8 w
  | 0x9 => .ok (.sneVxVy (fieldX w) (fieldY w))
  | 0xA => .ok (.ldINnn (fieldNnn w))
  | 0xB => .ok (.jpV0Nnn (fieldNnn w))
  | 0xC => .ok (.rndVxKk (fieldX w) (fieldKk w))
  | 0xD => .ok (.drwVxVyN (fieldX w) (fieldY w) (fieldN w))
  | 0xE => decodeFamilyE w
  | _ => decodeFamilyF w

/-- The word of two bytes in fetch order: the byte at the lower address is the high byte (R42). -/
def wordOfBytes (hi lo : Byte) : Word := hi ++ lo

/-- Decode from a list of bytes in address order: the instruction and the bytes after it. Every instruction is
two bytes (R60). -/
def decode : List Byte → Except Reject (Instr × List Byte)
  | hi :: lo :: rest =>
    match decodeWord (wordOfBytes hi lo) with
    | .ok i => .ok (i, rest)
    | .error r => .error r
  | _ => .error .truncated

/-- The format A word (R62). -/
def formatA (op : Nibble) (nnn : Addr) : Word := op ++ nnn
/-- The format XK word (R62). -/
def formatXK (op : Nibble) (x : RegIx) (kk : Byte) : Word := op ++ x ++ kk
/-- The format XY and XYN word (R62). -/
def formatXYN (op : Nibble) (x y : RegIx) (n : Nibble) : Word := op ++ x ++ y ++ n

/-- The canonical word of an instruction, by the pattern column of R64; don't-care fields are 0 (R67). -/
def encode : Instr → Word
  | .cls => 0x00E0
  | .ret => 0x00EE
  | .sys nnn => formatA 0x0 nnn
  | .jp nnn => formatA 0x1 nnn
  | .call nnn => formatA 0x2 nnn
  | .seVxKk x kk => formatXK 0x3 x kk
  | .sneVxKk x kk => formatXK 0x4 x kk
  | .seVxVy x y => formatXYN 0x5 x y 0x0
  | .ldVxKk x kk => formatXK 0x6 x kk
  | .addVxKk x kk => formatXK 0x7 x kk
  | .ldVxVy x y => formatXYN 0x8 x y 0x0
  | .orVxVy x y => formatXYN 0x8 x y 0x1
  | .andVxVy x y => formatXYN 0x8 x y 0x2
  | .xorVxVy x y => formatXYN 0x8 x y 0x3
  | .addVxVy x y => formatXYN 0x8 x y 0x4
  | .subVxVy x y => formatXYN 0x8 x y 0x5
  | .shrVx x => formatXYN 0x8 x 0x0 0x6
  | .subnVxVy x y => formatXYN 0x8 x y 0x7
  | .shlVx x => formatXYN 0x8 x 0x0 0xE
  | .sneVxVy x y => formatXYN 0x9 x y 0x0
  | .ldINnn nnn => formatA 0xA nnn
  | .jpV0Nnn nnn => formatA 0xB nnn
  | .rndVxKk x kk => formatXK 0xC x kk
  | .drwVxVyN x y n => formatXYN 0xD x y n
  | .skpVx x => formatXK 0xE x 0x9E
  | .sknpVx x => formatXK 0xE x 0xA1
  | .ldVxDt x => formatXK 0xF x 0x07
  | .ldVxK x => formatXK 0xF x 0x0A
  | .ldDtVx x => formatXK 0xF x 0x15
  | .ldStVx x => formatXK 0xF x 0x18
  | .addIVx x => formatXK 0xF x 0x1E
  | .ldFVx x => formatXK 0xF x 0x29
  | .ldBVx x => formatXK 0xF x 0x33
  | .ldMemVx x => formatXK 0xF x 0x55
  | .ldVxMem x => formatXK 0xF x 0x65

/-- The two bytes of a word in address order: high byte first (R42). -/
def bytesOfWord (w : Word) : List Byte := [w.extractLsb' 8 8, w.extractLsb' 0 8]

/-- The bytes of an instruction in address order. -/
def encodeBytes (i : Instr) : List Byte := bytesOfWord (encode i)

/-- The 16-bit word the opcode table's numbering gives: bit 0 is the word's least significant bit; bits at or
above `nbits` are 0. -/
def tableWord (nbits w : Nat) : Word := BitVec.ofNat 16 (w % 2 ^ nbits)

/-- The instruction the decoder reads from a word numbered as spec/opcode_table.json numbers it: the word's two
bytes are laid out as the hardware stores them and decoded. -/
def decodeTableWord (nbits w : Nat) : Option Instr :=
  match decode (bytesOfWord (tableWord nbits w)) with
  | .ok (i, _) => some i
  | .error _ => none

end Sys2Proof
end

