-- ==== Sys2Proof/Config.lean ====
section
/-! DEFINITION. What is fixed for the machine: the sizes of spec/00_scope.md R3, the default glyph table of
spec/10_state.md R21, and the free values of the two step inputs (R5, R140, R180). -/

namespace Sys2Proof

/-- The parameter `FONT`: 80 bytes, 16 glyphs of 5 bytes (R5, R20). -/
abbrev Font := Vector Byte 80

namespace Config

/-- Main memory is 4096 bytes, 0x000 to 0xFFF (R3, R20). -/
def memSize : Nat := 4096

/-- The last address a program counter, an index register or a data access may have: 0xFFF (R16, R44). -/
def lastAddr : Nat := 0xFFF

/-- Program entry address and reset value of `pc` (R3, R14). -/
def entry : Addr := 0x200

/-- The call stack holds 16 return addresses (R3, R17). -/
def stackCapacity : Nat := 16

/-- Most bytes a program may have: 4096 - 0x200 (R246). -/
def loadLimit : Nat := 3584

def glyphs0to3 : List Byte :=
  [0xF0, 0x90, 0x90, 0x90, 0xF0] ++ [0x20, 0x60, 0x20, 0x20, 0x70] ++
  [0xF0, 0x10, 0xF0, 0x80, 0xF0] ++ [0xF0, 0x10, 0xF0, 0x10, 0xF0]

def glyphs4to7 : List Byte :=
  [0x90, 0x90, 0xF0, 0x10, 0x10] ++ [0xF0, 0x80, 0xF0, 0x10, 0xF0] ++
  [0xF0, 0x80, 0xF0, 0x90, 0xF0] ++ [0xF0, 0x10, 0x20, 0x40, 0x40]

def glyphs8toB : List Byte :=
  [0xF0, 0x90, 0xF0, 0x90, 0xF0] ++ [0xF0, 0x90, 0xF0, 0x10, 0xF0] ++
  [0xF0, 0x90, 0xF0, 0x90, 0x90] ++ [0xE0, 0x90, 0xE0, 0x90, 0xE0]

def glyphsCtoF : List Byte :=
  [0xF0, 0x80, 0x80, 0x80, 0xF0] ++ [0xE0, 0x90, 0x90, 0x90, 0xE0] ++
  [0xF0, 0x80, 0xF0, 0x80, 0xF0] ++ [0xF0, 0x80, 0xF0, 0x80, 0x80]

/-- The default value of `FONT`, glyph 0 first, top row first (R21). The spec marks these bytes as general
knowledge. `State.reset` uses them; every state carries its own `font`, so a statement about all states
rests on no byte of this table (log entry 2). -/
def defaultFont : Font :=
  ⟨(glyphs0to3 ++ glyphs4to7 ++ glyphs8toB ++ glyphsCtoF).toArray, by decide⟩

/-- FREE VALUE: the key vector the environment supplies at the n-th sample that the state's own list of
inputs does not give (R5, R180, U9). It has no body: nothing can be proved of a value of it (log entry 1). -/
opaque freeKeys : Nat → Keys

/-- FREE VALUE: the random byte the environment supplies at the n-th sample that the state's own list of
inputs does not give (R5, R140, U8). It has no body: nothing can be proved of a value of it (log entry 1). -/
opaque freeRnd : Nat → Byte

end Config
end Sys2Proof
end

