-- ==== Sys2Proof/Machine/State.lean ====
section
/-! DEFINITION. The state of the core, field by field as spec/10_state.md gives it, the outcomes of a step, and
the state after reset (R30). The last three fields are the model's own and stand for what the spec calls inputs
and parameters (R5, R29); log entries 1 and 2. -/

namespace Sys2Proof.Machine

/-- What the environment supplies to one step (R80): the key vector (R180) and the random byte (R140). -/
structure StepInput where
  keys : Keys
  rnd : Byte
deriving DecidableEq, Repr

structure State where
  /-- V0 to VF (R10); VF is also the flag (R11). -/
  regs : Vector Byte 16
  /-- The index register I (R13). -/
  idx : Addr
  /-- The program counter (R14). -/
  pc : Addr
  /-- The stack pointer, the number of return addresses held, 0 to 16 (R18). -/
  sp : BitVec 5
  /-- The call stack (R17). -/
  stack : Vector Addr 16
  /-- The delay timer DT (R19). -/
  dt : Byte
  /-- The sound timer ST (R19). -/
  st : Byte
  /-- Main memory (R20): the bytes that differ from what reset wrote, by rising address. -/
  mem : List Host.Cell
  /-- The framebuffer (R22): 32 rows, bit `c` of row `r` is FB[r][c] (log entry 7). -/
  fb : Vector (BitVec 64) 32
  /-- The key-wait latch is active (R23). -/
  kwActive : Bool
  /-- The key-wait latch's snapshot of the keys (R23). -/
  kwSnap : Keys
  /-- The core has faulted (R24). -/
  halted : Bool
  /-- The cause code of the fault (R24, R201). -/
  cause : BitVec 3
  /-- Per-cycle output: the last step executed CLS or DRW (R26). -/
  redraw : Bool
  /-- Per-cycle output: ST is nonzero after the last step's decrement (R27). -/
  tone : Bool
  /-- Per-cycle output: the last step executed an unrecognized word (R28). -/
  unrec : Bool
  /-- THE MODEL'S OWN: the parameter FONT (R5), never changed by a step; log entry 2. -/
  font : Font
  /-- THE MODEL'S OWN: inputs the environment is already known to supply, the next step's first; log entry 1. -/
  inputs : List StepInput
  /-- THE MODEL'S OWN: how many samples have been taken, the argument of the free values; log entry 1. -/
  tick : Nat
deriving DecidableEq, Repr

/-- Reasons for which a step stops with no next state. There is none: every fault of the spec is a state the
core goes on to hold (R203: halted with a cause code), so it is a NEXT state here, and the step is total
(R80: "The step is a total function"; log entry 3). -/
inductive Fault where
deriving DecidableEq, Repr

/-- Reasons for which the model gives an instruction no meaning. -/
inductive Refusal where
  /-- Raised by an arm of `exec` whose instruction has no meaning yet. No arm raises it: all 35 are modelled.
  Safe: nothing follows from a refused step. -/
  | notModelled (mnemonic : String)
deriving DecidableEq, Repr

/-- What a meaning and a step answer. -/
abbrev Result := Host.Outcome State Fault Refusal

/-- The state after reset for a given glyph table: the table of R30, R240. Memory lists nothing: an unlisted
address reads as what reset wrote there. -/
def State.resetWith (font : Font) : State where
  regs := Vector.replicate 16 0
  idx := 0
  pc := Config.entry
  sp := 0
  stack := Vector.replicate 16 0
  dt := 0
  st := 0
  mem := []
  fb := Vector.replicate 32 0
  kwActive := false
  kwSnap := 0
  halted := false
  cause := 0
  redraw := false
  tone := false
  unrec := false
  font := font
  inputs := []
  tick := 0

/-- The machine right after reset, with the default glyph table (R30, R21). -/
def State.reset : State := State.resetWith Config.defaultFont

end Sys2Proof.Machine
end

