-- ==== Sys2Proof/Machine/Flags.lean ====
section
/-! DEFINITION. The flag computations (spec/42_alu.md R135, spec/44_display.md R171): each gives the byte 0 or 1
that is written to VF, from the operands' values before the instruction. -/

namespace Sys2Proof.Machine

/-- A flag as VF holds it: 0 or 1 (R11). -/
def flagByte (b : Bool) : Byte := if b then 1 else 0

/-- Carry of ADD Vx, Vy: 1 if the sum of the two operands exceeds 255 (R126). -/
def carryFlag (a b : Byte) : Byte := flagByte (decide (a.toNat + b.toNat > 255))

/-- Not-borrow, strict, of SUB (a = V[x], b = V[y]) and SUBN (a = V[y], b = V[x]): 1 if a > b, so 0 on equal
operands (R127, R129). -/
def notBorrowFlag (a b : Byte) : Byte := flagByte (decide (a.toNat > b.toNat))

/-- The bit SHR shifts out: old bit 0 (R128). -/
def shiftedOutRight (a : Byte) : Byte := flagByte (a.getLsbD 0)

/-- The bit SHL shifts out: old bit 7 (R130). -/
def shiftedOutLeft (a : Byte) : Byte := flagByte (a.getLsbD 7)

/-- Collision flag of DRW (R171). -/
def collisionFlag (hit : Bool) : Byte := flagByte hit

end Sys2Proof.Machine
end

