-- ==== Sys2Proof/Machine/Operands.lean ====
section
/-! DEFINITION. Operand forms: the register file (spec/10_state.md R10), the step's inputs (R80), memory through I
with its range check (spec/20_memory.md R44, R45), the call-stack slots (R109), framebuffer pixels (R22), and the
values computed from operands (R108, R152, R153). -/

namespace Sys2Proof.Machine

/-- `V[x]` (R10): the one read of a general register. -/
def State.V (s : State) (x : RegIx) : Byte := s.regs[x.toNat]'x.isLt

/-- `V[x] <- v` (R10): the one write of a general register. No register is hard-wired. -/
def State.setV (s : State) (x : RegIx) (v : Byte) : State := { s with regs := s.regs.set x.toNat v x.isLt }

/-- `VF <- v` (R11). -/
def State.setVF (s : State) (v : Byte) : State := s.setV 15 v

/-- `V[x] <- v` and then `VF <- flag`: with x = 15 the flag wins (R11, R83). -/
def State.setVAndFlag (s : State) (x : RegIx) (v flag : Byte) : State := (s.setV x v).setVF flag

/-- V0 to Vx, V0 first: the x + 1 bytes LD [I], Vx stores (R154). -/
def State.regsUpTo (s : State) (x : RegIx) : List Byte := s.regs.toList.take (x.toNat + 1)

/-- Write registers from number `k` upward with the bytes of a list, the first byte to `V[k]` (R155). -/
def State.setRegsFrom (s : State) (k : Nat) : List Byte → State
  | [] => s
  | b :: bs => (s.setV (BitVec.ofNat 4 k) b).setRegsFrom (k + 1) bs

/-- The inputs of the coming step (R80): the head of the known inputs, or the environment's free values. -/
def State.sample (s : State) : StepInput :=
  match s.inputs with
  | [] => ⟨Config.freeKeys s.tick, Config.freeRnd s.tick⟩
  | i :: _ => i

/-- The key vector sampled for this step (R180). -/
def State.keys (s : State) : Keys := s.sample.keys

/-- The random byte sampled for this step (R140). -/
def State.rnd (s : State) : Byte := s.sample.rnd

/-- `keys[i]` (R180). -/
def keyDown (keys : Keys) (i : Nat) : Bool := keys.getLsbD i

/-- The least i in 0..15 with d[i] = 1, none when d = 0 (R183). -/
def firstSetBit (d : Keys) : Option Nat := (List.range 16).find? fun i => d.getLsbD i

/-- What address `a` holds when no store has written it: the glyph table below 0x050, else 0 (R20, R41). -/
def unlistedByte (font : Font) (a : Nat) : Byte := if h : a < 80 then font[a] else 0

/-- Read a key of a memory list; an unlisted address reads as `dflt` gives it. -/
def Memory.read (dflt : Byte) (a : Nat) : List Host.Cell → Byte
  | [] => dflt
  | (b, w) :: rest => if a = b then w else Memory.read dflt a rest

/-- Put a new key into a memory list before the first larger one. -/
def Memory.insert (a : Nat) (v : Byte) : List Host.Cell → List Host.Cell
  | [] => [(a, v)]
  | (b, w) :: rest => if a < b then (a, v) :: (b, w) :: rest else (b, w) :: Memory.insert a v rest

/-- Drop a key of a memory list. -/
def Memory.erase (a : Nat) : List Host.Cell → List Host.Cell
  | [] => []
  | (b, w) :: rest => if a = b then Memory.erase a rest else (b, w) :: Memory.erase a rest

/-- Write a key of a memory list, keeping the addresses rising; writing the value `dflt` that an unlisted
address reads as removes the entry. -/
def Memory.write (dflt : Byte) (a : Nat) (v : Byte) (m : List Host.Cell) : List Host.Cell :=
  if v = dflt then Memory.erase a m else Memory.insert a v (Memory.erase a m)

/-- The canonical form of a memory list: addresses strictly rising and below `memSize` (R20), and no entry equal
to what its address reads as when unlisted. `lo` bounds the first address from below. -/
def Memory.wfFrom (font : Font) (lo : Nat) : List Host.Cell → Bool
  | [] => true
  | (a, v) :: rest =>
    decide (lo ≤ a) && decide (a < Config.memSize) && (v != unlistedByte font a) && Memory.wfFrom font (a + 1) rest

/-- The canonical form of a memory list. -/
def Memory.wf (font : Font) (m : List Host.Cell) : Bool := Memory.wfFrom font 0 m

/-- `MemRead(a, 1)` (00_scope.md section 5). Defined for addresses 0 to 0xFFF; every instruction checks the range
first, and above it a well-formed memory answers 0 (log entry 6). -/
def State.readByte (s : State) (a : Nat) : Byte := Memory.read (unlistedByte s.font a) a s.mem

/-- `MemWrite(a, 1, v)` (00_scope.md section 5). No range is read-only (R41). Defined for addresses 0 to 0xFFF;
every instruction checks the range first, and above it nothing is written (log entry 6). -/
def State.writeByte (s : State) (a : Nat) (v : Byte) : State :=
  if a < Config.memSize then { s with mem := Memory.write (unlistedByte s.font a) a v s.mem } else s

/-- The `n` bytes at `a`, `a + 1`, ... in ascending order (R42, R47). -/
def State.readBytes (s : State) (a : Nat) : Nat → List Byte
  | 0 => []
  | n + 1 => s.readByte a :: s.readBytes (a + 1) n

/-- Store the bytes of a list at `a`, `a + 1`, ... in ascending order (R42, R47). -/
def State.writeBytes (s : State) (a : Nat) : List Byte → State
  | [] => s
  | b :: bs => (s.writeByte a b).writeBytes (a + 1) bs

/-- The range check of R44 and R45 for `n` bytes at `a`: `a + (n - 1)` <= 0xFFF, no check when n = 0 (R171). The
sum is not truncated. -/
def dataInRange (a n : Nat) : Bool := n == 0 || decide (a + (n - 1) ≤ Config.lastAddr)

/-- The bytes at I that an instruction reads, or none when the last lies above 0xFFF (R44). -/
def State.loadAtI (s : State) (n : Nat) : Option (List Byte) :=
  if dataInRange s.idx.toNat n then some (s.readBytes s.idx.toNat n) else none

/-- The state with bytes stored at I, or none when the last lies above 0xFFF: no partial store (R45). -/
def State.storeAtI (s : State) (bs : List Byte) : Option State :=
  if dataInRange s.idx.toNat bs.length then some (s.writeBytes s.idx.toNat bs) else none

/-- The word at `pc`, high byte at the lower address; none when `pc` > 0xFFE (R42, R43). No alignment (R46). -/
def State.fetchWord (s : State) : Option (Byte × Byte) :=
  if s.pc.toNat > 0xFFE then none else some (s.readByte s.pc.toNat, s.readByte (s.pc.toNat + 1))

/-- The call-stack slot a stack-pointer value addresses: its low four bits (R109). -/
def stackSlot (p : BitVec 5) : Nat := p.toNat % 16

/-- Read of the call-stack memory (R109). -/
def State.stackRead (s : State) (p : BitVec 5) : Addr := s.stack[stackSlot p]'(Nat.mod_lt _ (by decide))

/-- Write of the call-stack memory (R109). -/
def State.stackWrite (s : State) (p : BitVec 5) (a : Addr) : State :=
  { s with stack := s.stack.set (stackSlot p) a (Nat.mod_lt _ (by decide)) }

/-- `FB[y][x]` (R22), both coordinates reduced modulo the grid (R171). -/
def pixel (fb : Vector (BitVec 64) 32) (y x : Nat) : Bool :=
  (fb[y % 32]'(Nat.mod_lt _ (by decide))).getLsbD (x % 64)

/-- `FB[y][x] <- FB[y][x] ^ 1` (R171), both coordinates reduced modulo the grid. -/
def togglePixel (fb : Vector (BitVec 64) 32) (y x : Nat) : Vector (BitVec 64) 32 :=
  fb.set (y % 32) (fb[y % 32]'(Nat.mod_lt _ (by decide)) ^^^ BitVec.twoPow 64 (x % 64)) (Nat.mod_lt _ (by decide))

/-- `FB[y][x]` of a state (R22). -/
def State.FB (s : State) (y x : Nat) : Bool := pixel s.fb y x

/-- The target of JP V0, nnn: a 13-bit sum, not truncated (R108). -/
def jumpOffsetTarget (nnn : Addr) (v0 : Byte) : Nat := nnn.toNat + v0.toNat

/-- The sum of ADD I, Vx: 13 bits, not truncated (R151). -/
def indexSum (i : Addr) (v : Byte) : Nat := i.toNat + v.toNat

/-- The address of the glyph of a whole byte: V[x] * 5, not masked, at most 0x4FB (R152). -/
def glyphAddr (v : Byte) : Addr := BitVec.ofNat 12 (v.toNat * 5)

/-- The hundreds, tens and ones digits of a byte (R153). -/
def bcdDigits (v : Byte) : List Byte :=
  [BitVec.ofNat 8 (v.toNat / 100), BitVec.ofNat 8 (v.toNat / 10 % 10), BitVec.ofNat 8 (v.toNat % 10)]

end Sys2Proof.Machine
end

