-- ==== Sys2Proof/Machine/Ops.lean ====
section
/-! DEFINITION. The shared operations of a step: taking a fault (spec/60_exceptions.md R203) and the only way out
of it (R206), applying the next pc (spec/40_cycle.md R86), the parts of the step cycle around the instruction
(R82), drawing (spec/44_display.md R171), and the host's reset and load ports (spec/70_reset_and_hazards.md). -/

namespace Sys2Proof.Machine

/-- The seven faults (R200, R201). -/
inductive CoreFault where
  | fetchRange
  | pcRange
  | stackOverflow
  | stackUnderflow
  | dataRange
  | indexRange
  | keyIndex
deriving DecidableEq, Repr

/-- The cause code of a fault (R201). -/
def causeCode : CoreFault → BitVec 3
  | .fetchRange => 1
  | .pcRange => 2
  | .stackOverflow => 3
  | .stackUnderflow => 4
  | .dataRange => 5
  | .indexRange => 6
  | .keyIndex => 7

/-- Fault entry (R203): halted with the cause, the per-cycle flags 0, every other piece of state as it was before
the step. There is no handler, no vector and no saved register; `pc` stays at the faulting instruction. -/
def State.raise (s : State) (f : CoreFault) : State :=
  { s with halted := true, cause := causeCode f, redraw := false, tone := false, unrec := false }

/-- The reset input (R240), the only way out of the halted state (R206): every piece of the core's state at its
reset value whatever it held before. FONT is a parameter, and the environment's inputs go on after the samples that
earlier steps took (log entry 9). -/
def State.rst (s : State) : State :=
  { State.resetWith s.font with inputs := s.inputs, tick := s.tick }

/-- Apply the pc (R82 part 5, R86): `post` is `pre` with the instruction's writes; a next pc above 0xFFF raises
PcRange and commits none of them (R83). -/
def State.commit (pre post : State) (npc : Nat) : State :=
  if npc > Config.lastAddr then pre.raise .pcRange else { post with pc := BitVec.ofNat 12 npc }

/-- `next(k)` (00_scope.md section 5): commit with the pc advanced by `k`. -/
def State.advance (pre post : State) (k : Nat) : State := pre.commit post (pre.pc.toNat + k)

/-- A skip: advance by 4 when the condition holds, by 2 otherwise; nothing else is written (R85). -/
def State.skipIf (s : State) (cond : Bool) : State := s.advance s (if cond then 4 else 2)

/-- The no-op of SYS and of every unrecognized word: `unrec` is set and the pc advances by 2 (R89, R90). -/
def State.unrecognizedNop (s : State) : State := s.advance { s with unrec := true } 2

/-- Part 1 of the step (R82): clear the per-cycle flags. -/
def State.clearCycleFlags (s : State) : State := { s with redraw := false, tone := false, unrec := false }

/-- The countdown of one timer (R190). -/
def countdown (t : Byte) : Byte := if t = 0 then 0 else t - 1

/-- The environment moves on by one sample (R80; log entry 1). -/
def State.consumeInput (s : State) : State := { s with inputs := s.inputs.tail, tick := s.tick + 1 }

/-- Part 6 of the step (R82, R190, R192): both timers count down, and the tone flag is set when the sound timer
is then nonzero. -/
def State.tickTimers (s : State) : State :=
  { s with dt := countdown s.dt, st := countdown s.st, tone := countdown s.st != 0 }

/-- The end of a step of a core that is not halted: the timers run on a committed step, not on one that raised a
fault (R87, R203); the step's sample of the inputs is spent either way, so that the next step has a sample of its
own (R80, R180). A step enters its instruction with `halted` = 0, so `halted` = 1 here is this step's fault. -/
def State.finishStep (t : State) : State := (if t.halted then t else t.tickTimers).consumeInput

/-- One pixel of a sprite that is set: row `r`, column `c` of a sprite at (vx, vy) (R171). The pair is the
framebuffer and whether a set pixel was cleared. -/
def drawPixel (vx vy r c : Nat) (acc : Vector (BitVec 64) 32 × Bool) : Vector (BitVec 64) 32 × Bool :=
  (togglePixel acc.1 (vy + r) (vx + c), acc.2 || pixel acc.1 (vy + r) (vx + c))

/-- Columns `c`, `c + 1`, ... of sprite row `r` for the bits of a list, the first at column `c`. -/
def drawBits (vx vy r c : Nat) : List Bool → Vector (BitVec 64) 32 × Bool → Vector (BitVec 64) 32 × Bool
  | [], acc => acc
  | bit :: bits, acc => drawBits vx vy r (c + 1) bits (if bit then drawPixel vx vy r c acc else acc)

/-- The bits of a sprite byte, column 0 first: column `c` is bit `7 - c` (R171). -/
def spriteBits (b : Byte) : List Bool :=
  [b.getLsbD 7, b.getLsbD 6, b.getLsbD 5, b.getLsbD 4, b.getLsbD 3, b.getLsbD 2, b.getLsbD 1, b.getLsbD 0]

/-- Rows `r`, `r + 1`, ... of a sprite at (vx, vy), one byte a row (R171). -/
def drawRows (vx vy r : Nat) : List Byte → Vector (BitVec 64) 32 × Bool → Vector (BitVec 64) 32 × Bool
  | [], acc => acc
  | b :: bs, acc => drawRows vx vy (r + 1) bs (drawBits vx vy r 0 (spriteBits b) acc)

/-- What a load on the host's load port gives: the state after it and `load_err` (R246). -/
structure LoadResult where
  state : State
  loadErr : Bool
deriving DecidableEq, Repr

/-- The load port (R245, R246): the program's bytes from 0x200 upward and nothing else; more than 3584 bytes are
refused whole. The host loads only between reset and the first step (R247): no step is a load. -/
def State.load (s : State) (program : List Byte) : LoadResult :=
  if program.length > Config.loadLimit then ⟨s, true⟩ else ⟨s.writeBytes Config.entry.toNat program, false⟩

/-- Reset, then load (R250 (1), (2)): the state a run starts from. -/
def boot (font : Font) (program : List Byte) : LoadResult := (State.resetWith font).load program

end Sys2Proof.Machine
end

