-- ==== Sys2Proof/Machine/Alu.lean ====
section
/-! DEFINITION. Register and ALU instructions (spec/42_alu.md R120 to R140). All reads are of the state before the
instruction; every one ends with `next(2)`. -/

namespace Sys2Proof.Machine

/-- LD Vx, kk (R120). -/
def execLdVxKk (x : RegIx) (kk : Byte) (s : State) : Result := .next (s.advance (s.setV x kk) 2)

/-- ADD Vx, kk (R121): wraps modulo 256, no flag. -/
def execAddVxKk (x : RegIx) (kk : Byte) (s : State) : Result := .next (s.advance (s.setV x (s.V x + kk)) 2)

/-- LD Vx, Vy (R122). -/
def execLdVxVy (x y : RegIx) (s : State) : Result := .next (s.advance (s.setV x (s.V y)) 2)

/-- OR Vx, Vy (R123): no flag. -/
def execOrVxVy (x y : RegIx) (s : State) : Result := .next (s.advance (s.setV x (s.V x ||| s.V y)) 2)

/-- AND Vx, Vy (R124): no flag. -/
def execAndVxVy (x y : RegIx) (s : State) : Result := .next (s.advance (s.setV x (s.V x &&& s.V y)) 2)

/-- XOR Vx, Vy (R125): no flag. -/
def execXorVxVy (x y : RegIx) (s : State) : Result := .next (s.advance (s.setV x (s.V x ^^^ s.V y)) 2)

/-- ADD Vx, Vy (R126): VF is the carry. -/
def execAddVxVy (x y : RegIx) (s : State) : Result :=
  .next (s.advance (s.setVAndFlag x (s.V x + s.V y) (carryFlag (s.V x) (s.V y))) 2)

/-- SUB Vx, Vy (R127): the result is stored (C1) and VF is 1 when V[x] > V[y] (C2). -/
def execSubVxVy (x y : RegIx) (s : State) : Result :=
  .next (s.advance (s.setVAndFlag x (s.V x - s.V y) (notBorrowFlag (s.V x) (s.V y))) 2)

/-- SHR Vx (R128): V[x] in place; VF is old bit 0. -/
def execShrVx (x : RegIx) (s : State) : Result :=
  .next (s.advance (s.setVAndFlag x (s.V x >>> 1) (shiftedOutRight (s.V x))) 2)

/-- SUBN Vx, Vy (R129): V[y] - V[x]; VF is 1 when V[y] > V[x]. -/
def execSubnVxVy (x y : RegIx) (s : State) : Result :=
  .next (s.advance (s.setVAndFlag x (s.V y - s.V x) (notBorrowFlag (s.V y) (s.V x))) 2)

/-- SHL Vx (R130): V[x] in place; VF is old bit 7. -/
def execShlVx (x : RegIx) (s : State) : Result :=
  .next (s.advance (s.setVAndFlag x (s.V x <<< 1) (shiftedOutLeft (s.V x))) 2)

/-- RND Vx, kk (R140): the step's random byte and the mask. -/
def execRndVxKk (x : RegIx) (kk : Byte) (s : State) : Result := .next (s.advance (s.setV x (s.rnd &&& kk)) 2)

end Sys2Proof.Machine
end

