-- ==== Sys2Proof/Machine/Control.lean ====
section
/-! DEFINITION. Control transfer (spec/41_control_transfer.md R100 to R109). -/

namespace Sys2Proof.Machine

/-- RET (R101): to the entry at the decremented pointer; StackUnderflow when the stack is empty. -/
def execRet (s : State) : Result :=
  .next (if s.sp = 0 then s.raise .stackUnderflow
    else s.commit { s with sp := s.sp - 1 } (s.stackRead (s.sp - 1)).toNat)

/-- JP nnn (R102). -/
def execJp (nnn : Addr) (s : State) : Result := .next (s.commit s nnn.toNat)

/-- CALL nnn (R103): StackOverflow is checked before PcRange of the return address (R205); a push is allowed
only when `sp` < 16 (R18; log entry 4). -/
def execCall (nnn : Addr) (s : State) : Result :=
  .next (if s.sp.toNat ≥ Config.stackCapacity then s.raise .stackOverflow
    else if s.pc.toNat + 2 > Config.lastAddr then s.raise .pcRange
    else s.commit { s.stackWrite s.sp (BitVec.ofNat 12 (s.pc.toNat + 2)) with sp := s.sp + 1 } nnn.toNat)

/-- SE Vx, kk (R104). -/
def execSeVxKk (x : RegIx) (kk : Byte) (s : State) : Result := .next (s.skipIf (s.V x == kk))

/-- SNE Vx, kk (R105). -/
def execSneVxKk (x : RegIx) (kk : Byte) (s : State) : Result := .next (s.skipIf (s.V x != kk))

/-- SE Vx, Vy (R106). -/
def execSeVxVy (x y : RegIx) (s : State) : Result := .next (s.skipIf (s.V x == s.V y))

/-- SNE Vx, Vy (R107). -/
def execSneVxVy (x y : RegIx) (s : State) : Result := .next (s.skipIf (s.V x != s.V y))

/-- JP V0, nnn (R108): PcRange when the sum exceeds 0xFFF. -/
def execJpV0Nnn (nnn : Addr) (s : State) : Result := .next (s.commit s (jumpOffsetTarget nnn (s.V 0)))

end Sys2Proof.Machine
end

