-- ==== Sys2Proof/Machine/Display.lean ====
section
/-! DEFINITION. Display instructions (spec/44_display.md R170, R171). -/

namespace Sys2Proof.Machine

/-- CLS (R170). -/
def execCls (s : State) : Result := .next (s.advance { s with fb := Vector.replicate 32 0, redraw := true } 2)

/-- DRW Vx, Vy, n (R171): `n` rows from I, XORed onto the framebuffer with both coordinates wrapping; VF is the
collision, written by every DRW; the coordinates are read before it. -/
def execDrwVxVyN (x y : RegIx) (n : Nibble) (s : State) : Result :=
  .next (match s.loadAtI n.toNat with
    | some rows =>
      let drawn := drawRows (s.V x).toNat (s.V y).toNat 0 rows (s.fb, false)
      s.advance { s.setVF (collisionFlag drawn.2) with fb := drawn.1, redraw := true } 2
    | none => s.raise .dataRange)

end Sys2Proof.Machine
end

