-- ==== Sys2Proof/Machine/Index.lean ====
section
/-! DEFINITION. Index register and memory instructions (spec/43_index_memory.md R150 to R155). No memory access
changes I. The instruction's own fault is checked before PcRange (R205). -/

namespace Sys2Proof.Machine

/-- LD I, nnn (R150). -/
def execLdINnn (nnn : Addr) (s : State) : Result := .next (s.advance { s with idx := nnn } 2)

/-- ADD I, Vx (R151): IndexRange when the sum exceeds 0xFFF. -/
def execAddIVx (x : RegIx) (s : State) : Result :=
  .next (if indexSum s.idx (s.V x) > Config.lastAddr then s.raise .indexRange
    else s.advance { s with idx := BitVec.ofNat 12 (indexSum s.idx (s.V x)) } 2)

/-- LD F, Vx (R152). -/
def execLdFVx (x : RegIx) (s : State) : Result := .next (s.advance { s with idx := glyphAddr (s.V x) } 2)

/-- LD B, Vx (R153): three digits at I, I + 1, I + 2. -/
def execLdBVx (x : RegIx) (s : State) : Result :=
  .next (match s.storeAtI (bcdDigits (s.V x)) with
    | some t => s.advance t 2
    | none => s.raise .dataRange)

/-- LD [I], Vx (R154): V0 to Vx at I upward. -/
def execLdMemVx (x : RegIx) (s : State) : Result :=
  .next (match s.storeAtI (s.regsUpTo x) with
    | some t => s.advance t 2
    | none => s.raise .dataRange)

/-- LD Vx, [I] (R155): V0 to Vx from I upward. -/
def execLdVxMem (x : RegIx) (s : State) : Result :=
  .next (match s.loadAtI (x.toNat + 1) with
    | some bs => s.advance (s.setRegsFrom 0 bs) 2
    | none => s.raise .dataRange)

end Sys2Proof.Machine
end

