-- ==== Sys2Proof/Machine/Keypad.lean ====
section
/-! DEFINITION. Keypad instructions (spec/45_keypad.md R180 to R183). -/

namespace Sys2Proof.Machine

/-- SKP Vx (R181): KeyIndex when V[x] > 15, checked before PcRange. -/
def execSkpVx (x : RegIx) (s : State) : Result :=
  .next (if (s.V x).toNat > 15 then s.raise .keyIndex else s.skipIf (keyDown s.keys (s.V x).toNat))

/-- SKNP Vx (R182): KeyIndex as SKP. -/
def execSknpVx (x : RegIx) (s : State) : Result :=
  .next (if (s.V x).toNat > 15 then s.raise .keyIndex else s.skipIf (!keyDown s.keys (s.V x).toNat))

/-- LD Vx, K (R183). Entry: snapshot the keys and set the latch. Waiting: no advance while the keys equal the
snapshot; else V[x] is the least key that differs, the latch is cleared and the pc advances. -/
def execLdVxK (x : RegIx) (s : State) : Result :=
  .next (if s.kwActive then
      match firstSetBit (s.keys ^^^ s.kwSnap) with
      | none => s.commit s s.pc.toNat
      | some k => s.advance { s.setV x (BitVec.ofNat 8 k) with kwActive := false } 2
    else s.commit { s with kwSnap := s.keys, kwActive := true } s.pc.toNat)

end Sys2Proof.Machine
end

