-- ==== Sys2Proof/Machine/System.lean ====
section
/-! DEFINITION. SYS and the unrecognized words (spec/40_cycle.md R89, R90). -/

namespace Sys2Proof.Machine

/-- SYS nnn (R89): an unrecognized opcode; `nnn` is ignored. -/
def execSys (_nnn : Addr) (s : State) : Result := .next s.unrecognizedNop

/-- A word that reaches no row of the opcode table (R90): no illegal-instruction fault. -/
def execUnrecognized (s : State) : Result := .next s.unrecognizedNop

end Sys2Proof.Machine
end

