-- ==== Sys2Proof/Machine/Timers.lean ====
section
/-! DEFINITION. Timer instructions (spec/46_timers.md R193 to R195). The countdown of R190 is part of the step
(`State.finishStep`), after the instruction: LD Vx, DT reads DT before it, and a value written to DT or ST is
decremented by it in the same step (R84). -/

namespace Sys2Proof.Machine

/-- LD Vx, DT (R193). -/
def execLdVxDt (x : RegIx) (s : State) : Result := .next (s.advance (s.setV x s.dt) 2)

/-- LD DT, Vx (R194). -/
def execLdDtVx (x : RegIx) (s : State) : Result := .next (s.advance { s with dt := s.V x } 2)

/-- LD ST, Vx (R195). No instruction reads ST. -/
def execLdStVx (x : RegIx) (s : State) : Result := .next (s.advance { s with st := s.V x } 2)

end Sys2Proof.Machine
end

