-- ==== Sys2Proof/Machine/Step.lean ====
section
/-! DEFINITION. One step of the core (spec/40_cycle.md R80 to R88), and a word placed where the next step
fetches it. -/

namespace Sys2Proof.Machine

/-- Parts 3 and 4 of the step for a fetched word (R82): the instruction it decodes to, or the no-op of an
unrecognized word (R90). -/
def execWord (w : Word) (s : State) : Host.Outcome State Fault Refusal :=
  match decodeWord w with
  | .ok i => exec i s
  | .error _ => execUnrecognized s

/-- One step (R82). A halted core changes nothing and fetches nothing (R88). Otherwise the per-cycle flags are
cleared, the word at `pc` is fetched (FetchRange when `pc` = 0xFFF, R43) and executed, the timers run unless a fault
was raised (R87), and the step's one sample of the inputs is spent (R80; log entry 1). The key-wait latch is not
looked at here: the fetched LD Vx, K reads it (R81; log entry 5). -/
def step (s : State) : Host.Outcome State Fault Refusal :=
  if s.halted then .next s
  else
    match s.clearCycleFlags.fetchWord with
    | none => .next (s.raise .fetchRange).finishStep
    | some (hi, lo) =>
      match execWord (wordOfBytes hi lo) s.clearCycleFlags with
      | .next t => .next t.finishStep
      | .fault r => .fault r
      | .refused r => .refused r

/-- The state with an instruction word, numbered as spec/opcode_table.json numbers it, stored where `step` fetches
next: its high byte at `pc`, its low byte at `pc + 1` (R42). For a core that is not halted and whose `pc` is at
most 0xFFE the very next step runs it (log entry 10). -/
def State.withFetchWord (s : State) (nbits w : Nat) : State :=
  s.writeBytes s.pc.toNat (bytesOfWord (tableWord nbits w))

end Sys2Proof.Machine
end

