-- ==== Sys2Proof/Safety.lean ====
section
/-! DEFINITION. What claims about runs are stated in: the modes of spec/40_cycle.md R81, the instruction a step
executes, the invariant of spec/10_state.md R31, and the instruction classes of the spec's whole-machine rules. -/

namespace Sys2Proof

/-- The registers an instruction may write: its destination, VF for an instruction that defines a flag (R11), and
V0 to Vx for LD Vx, [I] (R155). -/
def Instr.writesReg (i : Instr) (k : RegIx) : Prop :=
  match i with
  | .ldVxKk x _ | .addVxKk x _ | .ldVxVy x _ | .orVxVy x _ | .andVxVy x _ | .xorVxVy x _ | .rndVxKk x _
  | .ldVxDt x | .ldVxK x => k = x
  | .addVxVy x _ | .subVxVy x _ | .shrVx x | .subnVxVy x _ | .shlVx x => k = x ∨ k = 15
  | .drwVxVyN _ _ _ => k = 15
  | .ldVxMem x => k.toNat ≤ x.toNat
  | .cls | .ret | .sys _ | .jp _ | .call _ | .seVxKk _ _ | .sneVxKk _ _ | .seVxVy _ _ | .sneVxVy _ _ | .ldINnn _
  | .jpV0Nnn _ | .skpVx _ | .sknpVx _ | .ldDtVx _ | .ldStVx _ | .addIVx _ | .ldFVx _ | .ldBVx _ | .ldMemVx _ =>
    False

end Sys2Proof

namespace Sys2Proof.Machine

/-- The three states of the core's state machine (R81). -/
inductive Mode where
  | running
  | awaitingKey
  | halted
deriving DecidableEq, Repr

/-- The mode is no register of its own: it is read off `halted` and `kw_active` (R81). -/
def State.mode (s : State) : Mode :=
  if s.halted then .halted else if s.kwActive then .awaitingKey else .running

/-- The word at `pc`, none when its second byte would lie at 0x1000 (R42, R43). -/
def State.wordAtPc (s : State) : Option Word :=
  if s.pc.toNat > 0xFFE then none else some (wordOfBytes (s.readByte s.pc.toNat) (s.readByte (s.pc.toNat + 1)))

/-- The instruction the next step executes: none when the core is halted, the fetch faults, or the word at `pc`
reaches no row of the opcode table. -/
def State.nextInstr (s : State) : Option Instr :=
  if s.halted then none else s.wordAtPc.bind fun w => (decodeWord w).toOption

/-- A step of a core that is not halted which raised no fault: it commits (R83). -/
def Commits (s t : State) : Prop := s.halted = false ∧ step s = .next t ∧ t.halted = false

/-- Memory is in its canonical form. -/
abbrev State.memWf (s : State) : Prop := Memory.wf s.font s.mem = true

/-- The invariant of R31, for what the types do not already say: `sp` <= 16; the cause code is 0 exactly while the
core has not faulted; an active latch means that the word at `pc` is an LD Vx, K. With it, the memory's canonical
form (log entry 6) and the output flags of a halted core, all 0 (R204). -/
structure State.Inv (s : State) : Prop where
  spLe : s.sp.toNat ≤ 16
  causeRunning : s.halted = false → s.cause = 0
  causeHalted : s.halted = true → s.cause ≠ 0
  latch : s.kwActive = true → ∃ w x, s.wordAtPc = some w ∧ decodeWord w = .ok (.ldVxK x)
  mem : s.memWf
  quietWhenHalted : s.halted = true → s.redraw = false ∧ s.tone = false ∧ s.unrec = false

/-- The state a faulting instruction or step leaves, written out from R203: halted with the cause code, the
per-cycle flags 0, every other piece of state kept. -/
def faulted (s : State) (code : BitVec 3) : State :=
  { s with halted := true, cause := code, redraw := false, tone := false, unrec := false }

/-- The state a faulting step leaves: `faulted`, and the step's sample of the inputs spent (the model's own fields,
log entry 1). -/
def faultedStep (s : State) (code : BitVec 3) : State :=
  { faulted s code with inputs := s.inputs.tail, tick := s.tick + 1 }

/-- The next pc of each instruction, by the table of R85; it may exceed 0xFFF (R86). -/
def nextPc (i : Instr) (s : State) : Nat :=
  match i with
  | .ret => (s.stackRead (s.sp - 1)).toNat
  | .jp nnn | .call nnn => nnn.toNat
  | .jpV0Nnn nnn => nnn.toNat + (s.V 0).toNat
  | .seVxKk x kk => if s.V x = kk then s.pc.toNat + 4 else s.pc.toNat + 2
  | .sneVxKk x kk => if s.V x = kk then s.pc.toNat + 2 else s.pc.toNat + 4
  | .seVxVy x y => if s.V x = s.V y then s.pc.toNat + 4 else s.pc.toNat + 2
  | .sneVxVy x y => if s.V x = s.V y then s.pc.toNat + 2 else s.pc.toNat + 4
  | .skpVx x => if keyDown s.keys (s.V x).toNat then s.pc.toNat + 4 else s.pc.toNat + 2
  | .sknpVx x => if keyDown s.keys (s.V x).toNat then s.pc.toNat + 2 else s.pc.toNat + 4
  | .ldVxK _ => if s.kwActive = true ∧ s.keys ≠ s.kwSnap then s.pc.toNat + 2 else s.pc.toNat
  | .cls | .sys _ | .ldVxKk _ _ | .addVxKk _ _ | .ldVxVy _ _ | .orVxVy _ _ | .andVxVy _ _ | .xorVxVy _ _
  | .addVxVy _ _ | .subVxVy _ _ | .shrVx _ | .subnVxVy _ _ | .shlVx _ | .ldINnn _ | .rndVxKk _ _
  | .drwVxVyN _ _ _ | .ldVxDt _ | .ldDtVx _ | .ldStVx _ | .addIVx _ | .ldFVx _ | .ldBVx _ | .ldMemVx _
  | .ldVxMem _ => s.pc.toNat + 2

/-- The instruction's own fault, by the conditions of R201. An `sp` above 16, which no run reaches, counts as a full
stack: the model's choice, log entry 4. -/
def ownFault (i : Instr) (s : State) : Option CoreFault :=
  match i with
  | .ret => if s.sp = 0 then some .stackUnderflow else none
  | .call _ => if 16 ≤ s.sp.toNat then some .stackOverflow else none
  | .drwVxVyN _ _ n => if 1 ≤ n.toNat ∧ 0xFFF < s.idx.toNat + n.toNat - 1 then some .dataRange else none
  | .ldBVx _ => if 0xFFF < s.idx.toNat + 2 then some .dataRange else none
  | .ldMemVx x | .ldVxMem x => if 0xFFF < s.idx.toNat + x.toNat then some .dataRange else none
  | .addIVx x => if 0xFFF < s.idx.toNat + (s.V x).toNat then some .indexRange else none
  | .skpVx x | .sknpVx x => if 15 < (s.V x).toNat then some .keyIndex else none
  | .cls | .sys _ | .jp _ | .seVxKk _ _ | .sneVxKk _ _ | .seVxVy _ _ | .ldVxKk _ _ | .addVxKk _ _ | .ldVxVy _ _
  | .orVxVy _ _ | .andVxVy _ _ | .xorVxVy _ _ | .addVxVy _ _ | .subVxVy _ _ | .shrVx _ | .subnVxVy _ _
  | .shlVx _ | .sneVxVy _ _ | .ldINnn _ | .jpV0Nnn _ | .rndVxKk _ _ | .ldVxDt _ | .ldVxK _ | .ldDtVx _
  | .ldStVx _ | .ldFVx _ => none

/-- PcRange of an instruction: its next pc, or the return address of a CALL, above 0xFFF (R86, R103). -/
def pcOutOfRange (i : Instr) (s : State) : Bool :=
  decide (0xFFF < nextPc i s) ||
    match i with
    | .call _ => decide (0xFFF < s.pc.toNat + 2)
    | _ => false

/-- The fault of an instruction in the order of R205: its own, then PcRange. -/
def instrFault (i : Instr) (s : State) : Option CoreFault :=
  match ownFault i s with
  | some f => some f
  | none => if pcOutOfRange i s then some .pcRange else none

/-- The fault of a step of a core that is not halted, in the order of R205: FetchRange first; an unrecognized
word can raise PcRange only (R90). -/
def stepFault (s : State) : Option CoreFault :=
  match s.wordAtPc with
  | none => some .fetchRange
  | some w =>
    match decodeWord w with
    | .ok i => instrFault i s
    | .error _ => if 0xFFF < s.pc.toNat + 2 then some .pcRange else none

/-- The framebuffer position (row y, column x) is one that a sprite of `n` rows at I, drawn at (V[vx], V[vy]),
toggles: some row r and column c of the sprite fall on it, wrapping, and the row byte's bit 7 - c is 1 (R171). -/
def spriteCovers (s : State) (vx vy : RegIx) (n : Nat) (y x : Nat) : Prop :=
  ∃ r c : Nat, r < n ∧ c < 8 ∧ ((s.V vy).toNat + r) % 32 = y ∧ ((s.V vx).toNat + c) % 64 = x ∧
    (s.readByte (s.idx.toNat + r)).getLsbD (7 - c) = true

/-- The core's state at its reset values for a glyph table: the table of R30, field by field. -/
structure AtReset (s : State) (font : Font) : Prop where
  regs : ∀ x, s.V x = 0
  idx : s.idx = 0
  pc : s.pc = 0x200
  sp : s.sp = 0
  stack : ∀ k (h : k < 16), s.stack[k] = 0
  timers : s.dt = 0 ∧ s.st = 0
  glyphs : ∀ a (h : a < 80), s.readByte a = font[a]
  memory : ∀ a, 80 ≤ a → a < 4096 → s.readByte a = 0
  fb : ∀ y x, s.FB y x = false
  latch : s.kwActive = false ∧ s.kwSnap = 0
  fault : s.halted = false ∧ s.cause = 0
  flags : s.redraw = false ∧ s.tone = false ∧ s.unrec = false

/-- An instruction whose effect is `t` and which ends with `next(2)`: it completes with the pc advanced by 2, or
raises PcRange (code 2) and commits nothing when pc + 2 is above 0xFFF (R86). -/
def CompletesNext2 (i : Instr) (s t : State) : Prop :=
  (s.pc.toNat + 2 ≤ 0xFFF → exec i s = .next { t with pc := s.pc + 2 }) ∧
  (0xFFF < s.pc.toNat + 2 → exec i s = .next (faulted s 2))

/-- A skip on a condition: it completes with the pc advanced by 4 or by 2 and nothing else written, or raises
PcRange when that is above 0xFFF (R85, R86). -/
def CompletesSkip (i : Instr) (s : State) (cond : Prop) : Prop :=
  (cond → s.pc.toNat + 4 ≤ 0xFFF → exec i s = .next { s with pc := s.pc + 4 }) ∧
  (cond → 0xFFF < s.pc.toNat + 4 → exec i s = .next (faulted s 2)) ∧
  (¬cond → s.pc.toNat + 2 ≤ 0xFFF → exec i s = .next { s with pc := s.pc + 2 }) ∧
  (¬cond → 0xFFF < s.pc.toNat + 2 → exec i s = .next (faulted s 2))

/-- The registers after `V[x] <- v` and then `VF <- flag`: with x = 15 the flag wins (R11). -/
def regsWithFlag (s : State) (x : RegIx) (v flag : Byte) : Vector Byte 16 := (s.regs.set x.toNat v x.isLt).set 15 flag

/-- The word with its don't-care bits cleared (R67). -/
def canonicalWord (w : Word) : Word :=
  if w.extractLsb' 12 4 = 0x5#4 ∨ w.extractLsb' 12 4 = 0x9#4 then w &&& 0xFFF0
  else if w.extractLsb' 12 4 = 0x8#4 ∧ (w.extractLsb' 0 4 = 0x6#4 ∨ w.extractLsb' 0 4 = 0xE#4) then w &&& 0xFF0F
  else w

/-- One step as a function of states (a step is total, R80). -/
def stepTo (s : State) : State :=
  match step s with
  | .next t => t
  | .fault _ => s
  | .refused _ => s

/-- The state after `n` steps. -/
def stepsTo : Nat → State → State
  | 0, s => s
  | n + 1, s => stepsTo n (stepTo s)

end Sys2Proof.Machine
end

