-- ==== Sys2Proof/Certificates/Slice0/Obligations.lean ====
section
/-! DEFINITION. The statements for the provers. Each formalises rules of spec/ named in its docstring; OBLIGATIONS.json
lists them. The vocabulary (`CompletesNext2`, `faulted`, `nextPc`, ...) is that of Sys2Proof/Safety.lean. -/

open Sys2Proof Sys2Proof.Machine

/-! ### Encoding -/

/-- Every well-formed instruction, with every operand at every value, decodes from its canonical word and from its
bytes with anything after them (R60, R62, R64). -/
def Obligations.DecodeOfEncodeIsTheInstruction : Prop :=
  ∀ (i : Instr) (rest : List Byte), i.WellFormed →
    decodeWord (encode i) = .ok i ∧ decode (encodeBytes i ++ rest) = .ok (i, rest)

/-- A word that decodes is the canonical word of a well-formed instruction up to the don't-care bits of R67: the
low nibble of 5xy? and 9xy?, the y field of 8xy6 and 8xyE. -/
def Obligations.EncodeOfDecodeClearsOnlyDontCareBits : Prop :=
  ∀ (w : Word) (i : Instr), decodeWord w = .ok i → i.WellFormed ∧ encode i = canonicalWord w

/-- The rows of the opcode table (R64): a word that meets a row's mask and match is that row's instruction, with the
fields of R62; SYS after CLS and RET (R65). -/
def Obligations.TableRowsSelectTheirInstruction : Prop :=
  ∀ w : Word,
    let x := w.extractLsb' 8 4
    let y := w.extractLsb' 4 4
    let n := w.extractLsb' 0 4
    let kk := w.extractLsb' 0 8
    let nnn := w.extractLsb' 0 12
    (w &&& 0xFFFF = 0x00E0 → decodeWord w = .ok .cls) ∧
    (w &&& 0xFFFF = 0x00EE → decodeWord w = .ok .ret) ∧
    (w &&& 0xF000 = 0x0000 → w ≠ 0x00E0 → w ≠ 0x00EE → decodeWord w = .ok (.sys nnn)) ∧
    (w &&& 0xF000 = 0x1000 → decodeWord w = .ok (.jp nnn)) ∧
    (w &&& 0xF000 = 0x2000 → decodeWord w = .ok (.call nnn)) ∧
    (w &&& 0xF000 = 0x3000 → decodeWord w = .ok (.seVxKk x kk)) ∧
    (w &&& 0xF000 = 0x4000 → decodeWord w = .ok (.sneVxKk x kk)) ∧
    (w &&& 0xF000 = 0x5000 → decodeWord w = .ok (.seVxVy x y)) ∧
    (w &&& 0xF000 = 0x6000 → decodeWord w = .ok (.ldVxKk x kk)) ∧
    (w &&& 0xF000 = 0x7000 → decodeWord w = .ok (.addVxKk x kk)) ∧
    (w &&& 0xF00F = 0x8000 → decodeWord w = .ok (.ldVxVy x y)) ∧
    (w &&& 0xF00F = 0x8001 → decodeWord w = .ok (.orVxVy x y)) ∧
    (w &&& 0xF00F = 0x8002 → decodeWord w = .ok (.andVxVy x y)) ∧
    (w &&& 0xF00F = 0x8003 → decodeWord w = .ok (.xorVxVy x y)) ∧
    (w &&& 0xF00F = 0x8004 → decodeWord w = .ok (.addVxVy x y)) ∧
    (w &&& 0xF00F = 0x8005 → decodeWord w = .ok (.subVxVy x y)) ∧
    (w &&& 0xF00F = 0x8006 → decodeWord w = .ok (.shrVx x)) ∧
    (w &&& 0xF00F = 0x8007 → decodeWord w = .ok (.subnVxVy x y)) ∧
    (w &&& 0xF00F = 0x800E → decodeWord w = .ok (.shlVx x)) ∧
    (w &&& 0xF000 = 0x9000 → decodeWord w = .ok (.sneVxVy x y)) ∧
    (w &&& 0xF000 = 0xA000 → decodeWord w = .ok (.ldINnn nnn)) ∧
    (w &&& 0xF000 = 0xB000 → decodeWord w = .ok (.jpV0Nnn nnn)) ∧
    (w &&& 0xF000 = 0xC000 → decodeWord w = .ok (.rndVxKk x kk)) ∧
    (w &&& 0xF000 = 0xD000 → decodeWord w = .ok (.drwVxVyN x y n)) ∧
    (w &&& 0xF0FF = 0xE09E → decodeWord w = .ok (.skpVx x)) ∧
    (w &&& 0xF0FF = 0xE0A1 → decodeWord w = .ok (.sknpVx x)) ∧
    (w &&& 0xF0FF = 0xF007 → decodeWord w = .ok (.ldVxDt x)) ∧
    (w &&& 0xF0FF = 0xF00A → decodeWord w = .ok (.ldVxK x)) ∧
    (w &&& 0xF0FF = 0xF015 → decodeWord w = .ok (.ldDtVx x)) ∧
    (w &&& 0xF0FF = 0xF018 → decodeWord w = .ok (.ldStVx x)) ∧
    (w &&& 0xF0FF = 0xF01E → decodeWord w = .ok (.addIVx x)) ∧
    (w &&& 0xF0FF = 0xF029 → decodeWord w = .ok (.ldFVx x)) ∧
    (w &&& 0xF0FF = 0xF033 → decodeWord w = .ok (.ldBVx x)) ∧
    (w &&& 0xF0FF = 0xF055 → decodeWord w = .ok (.ldMemVx x)) ∧
    (w &&& 0xF0FF = 0xF065 → decodeWord w = .ok (.ldVxMem x))

/-- The decoder rejects, by name, exactly the last three lines of R66's table; the words of its first line are SYS. -/
def Obligations.RejectedWordsAreThoseOfTheUnrecognizedTable : Prop :=
  ∀ w : Word,
    (decodeWord w = .error (.unrecognized w) ↔
      (w.toNat / 4096 = 0x8 ∧ w.toNat % 16 ∈ [0x8, 0x9, 0xA, 0xB, 0xC, 0xD, 0xF]) ∨
      (w.toNat / 4096 = 0xE ∧ w.toNat % 256 ∉ [0x9E, 0xA1]) ∨
      (w.toNat / 4096 = 0xF ∧
        w.toNat % 256 ∉ [0x07, 0x0A, 0x15, 0x18, 0x1E, 0x29, 0x33, 0x55, 0x65])) ∧
    ((∃ nnn, decodeWord w = .ok (.sys nnn)) ↔ w.toNat ≤ 0x0FFF ∧ w ≠ 0x00E0 ∧ w ≠ 0x00EE)

/-- R67: the ignored bits. -/
def Obligations.DontCareBitsDoNotChangeTheInstruction : Prop :=
  ∀ (x y : RegIx) (n : Nibble),
    decodeWord (0x5#4 ++ x ++ y ++ n) = .ok (.seVxVy x y) ∧
    decodeWord (0x9#4 ++ x ++ y ++ n) = .ok (.sneVxVy x y) ∧
    decodeWord (0x8#4 ++ x ++ y ++ 0x6#4) = .ok (.shrVx x) ∧
    decodeWord (0x8#4 ++ x ++ y ++ 0xE#4) = .ok (.shlVx x) ∧
    encode (.seVxVy x y) = 0x5#4 ++ x ++ y ++ 0x0#4 ∧
    encode (.sneVxVy x y) = 0x9#4 ++ x ++ y ++ 0x0#4 ∧
    encode (.shrVx x) = 0x8#4 ++ x ++ 0x0#4 ++ 0x6#4 ∧
    encode (.shlVx x) = 0x8#4 ++ x ++ 0x0#4 ++ 0xE#4

/-- Words written out from the patterns of R64, one or more a family. -/
def Obligations.KnownWordsDecodeAsThePatternsSay : Prop :=
  decodeWord 0x00E0 = .ok .cls ∧ decodeWord 0x00E1 = .ok (.sys 0x0E1) ∧
  decodeWord 0x2ABC = .ok (.call 0xABC) ∧ decodeWord 0xB3F0 = .ok (.jpV0Nnn 0x3F0) ∧
  decodeWord 0x332A = .ok (.seVxKk 3 0x2A) ∧ decodeWord 0x5121 = .ok (.seVxVy 1 2) ∧
  decodeWord 0x8F14 = .ok (.addVxVy 15 1) ∧ decodeWord 0x8576 = .ok (.shrVx 5) ∧
  decodeWord 0xD015 = .ok (.drwVxVyN 0 1 5) ∧ decodeWord 0xE29E = .ok (.skpVx 2) ∧
  decodeWord 0xF30A = .ok (.ldVxK 3) ∧ decodeWord 0xF415 = .ok (.ldDtVx 4) ∧
  decodeWord 0xF265 = .ok (.ldVxMem 2) ∧ decodeWord 0x8128 = .error (.unrecognized 0x8128)

/-! ### The step -/

/-- Fetch is big-endian and needs no alignment (R42, R43): the word at pc is Mem[pc] * 256 + Mem[pc + 1], at any pc
from 0x000 to 0xFFE, and there is none at 0xFFF. -/
def Obligations.FetchReadsTwoBytesBigEndian : Prop :=
  ∀ s : State,
    (s.pc.toNat ≤ 0xFFE → s.wordAtPc =
      some (BitVec.ofNat 16 ((s.readByte s.pc.toNat).toNat * 256 + (s.readByte (s.pc.toNat + 1)).toNat))) ∧
    (0xFFE < s.pc.toNat → s.wordAtPc = none)

/-- A step runs the decoded instruction (R82): per-cycle flags cleared, the instruction executed, then, unless it
raised a fault, the two timers decremented when nonzero and the tone flag set when ST is then nonzero. The list of
inputs and the tick are the model's own: a step that faults spends its sample as well (log entry 1). -/
def Obligations.StepRunsTheDecodedInstruction : Prop :=
  ∀ (s t : State) (w : Word) (i : Instr),
    s.halted = false → s.wordAtPc = some w → decodeWord w = .ok i →
    exec i { s with redraw := false, tone := false, unrec := false } = .next t →
    step s = .next (if t.halted = true then { t with inputs := t.inputs.tail, tick := t.tick + 1 } else
      { t with
        dt := if t.dt = 0 then 0 else t.dt - 1
        st := if t.st = 0 then 0 else t.st - 1
        tone := decide (1 < t.st.toNat)
        inputs := t.inputs.tail
        tick := t.tick + 1 })

/-- An unrecognized word is a no-op (R90): the pc advances by 2, the timers run, `unrec` = 1, nothing else changes
(the list of inputs and the tick are the model's own); PcRange when pc = 0xFFE, and no illegal-instruction fault. -/
def Obligations.UnrecognizedWordIsANoOp : Prop :=
  ∀ (s : State) (w : Word) (r : Reject),
    s.halted = false → s.wordAtPc = some w → decodeWord w = .error r →
    (s.pc.toNat ≤ 0xFFD → step s = .next
      { s with
        pc := s.pc + 2
        dt := if s.dt = 0 then 0 else s.dt - 1
        st := if s.st = 0 then 0 else s.st - 1
        redraw := false
        tone := decide (1 < s.st.toNat)
        unrec := true
        inputs := s.inputs.tail
        tick := s.tick + 1 }) ∧
    (s.pc = 0xFFE → step s = .next (faultedStep s 2))

/-- A fetch at 0xFFF raises FetchRange, code 1 (R16, R43, R201). The sample of the inputs that the step spends is the
model's own (log entry 1). -/
def Obligations.FetchAtTheLastAddressFaults : Prop :=
  ∀ s : State, s.halted = false → s.pc = 0xFFF → step s = .next (faultedStep s 1)

/-- A step of a halted core changes nothing, one step or many (R88, R204). -/
def Obligations.HaltedCoreIsFrozen : Prop :=
  ∀ s : State, s.halted = true → step s = .next s ∧ ∀ n, stepsTo n s = s

/-- The step is a total function (R80): in every state it answers a next state, never a stop. -/
def Obligations.StepIsTotal : Prop :=
  ∀ s : State, ∃ t, step s = .next t

/-- The step raises a fault exactly when a condition of R201 holds, the first in R205's order, and leaves what R203
says: halted, the code of that fault, the per-cycle flags 0, every piece of the core's state, pc and timers included, as
before the step. The two fields that are no state of the core, the environment's inputs and their count, are left open
here (EachStepTakesOneSample says them). The premise on `sp` is the invariant of R31. -/
def Obligations.FaultingStepCommitsNothing : Prop :=
  ∀ s t : State, s.sp.toNat ≤ 16 → s.halted = false → step s = .next t →
    (t.halted = true ↔ ∃ f, stepFault s = some f) ∧
    (∀ f, stepFault s = some f →
      ∃ inputs tick, t = { faulted s (causeCode f) with inputs := inputs, tick := tick }) ∧
    causeCode .fetchRange = 1 ∧ causeCode .pcRange = 2 ∧ causeCode .stackOverflow = 3 ∧
    causeCode .stackUnderflow = 4 ∧ causeCode .dataRange = 5 ∧ causeCode .indexRange = 6 ∧
    causeCode .keyIndex = 7

/-- Where an instruction traps (R201, R205): its own fault first, then PcRange; nothing of its effect happens. At `sp`
17 to 31, which no run reaches, CALL's stack counts as full: the model's choice, log entry 4, no rule of the spec. -/
def Obligations.InstructionFaultsInPriorityOrder : Prop :=
  ∀ (i : Instr) (s : State),
    (∀ f, ownFault i s = some f → exec i s = .next (faulted s (causeCode f))) ∧
    (ownFault i s = none → pcOutOfRange i s = true → exec i s = .next (faulted s 2))

/-- R205's examples: a CALL at 0xFFE with a full stack, a SKP at 0xFFE with a key index above 15, an ADD I, Vx at
0xFFE that overflows each report their own fault. -/
def Obligations.OwnFaultWinsOverPcRange : Prop :=
  ∀ (s : State) (nnn : Addr) (x : RegIx), s.pc = 0xFFE →
    (s.sp = 16 → exec (.call nnn) s = .next (faulted s 3)) ∧
    ((s.V x).toNat = 0x20 → exec (.skpVx x) s = .next (faulted s 7)) ∧
    (0xFFF < s.idx.toNat + (s.V x).toNat → exec (.addIVx x) s = .next (faulted s 6))

/-- The next pc of a committed step is the one of R85's table; an unrecognized word advances by 2. -/
def Obligations.NextPcFollowsTheOutcomeTable : Prop :=
  ∀ s t : State, Commits s t →
    (∀ i, s.nextInstr = some i → t.pc.toNat = nextPc i s) ∧ (s.nextInstr = none → t.pc.toNat = s.pc.toNat + 2)

/-- `redraw` is 1 after a step exactly when that step executed CLS or DRW (R26). -/
def Obligations.RedrawExactlyOnClearOrDraw : Prop :=
  ∀ s t : State, s.halted = false → step s = .next t →
    (t.redraw = true ↔ t.halted = false ∧
      (s.nextInstr = some .cls ∨ ∃ x y n, s.nextInstr = some (.drwVxVyN x y n)))

/-- `tone` is 1 after a step exactly when ST is nonzero after that step's decrement (R27, R192); a faulting step
decrements nothing and leaves it 0 (R203). -/
def Obligations.ToneExactlyWhileSoundTimerRuns : Prop :=
  ∀ s t : State, s.halted = false → step s = .next t →
    (t.tone = true ↔ t.halted = false ∧ t.st ≠ 0)

/-- `unrec` is 1 after a step exactly when that step executed an unrecognized word, SYS included (R28, R66). -/
def Obligations.UnrecExactlyOnUnrecognizedWords : Prop :=
  ∀ s t : State, s.halted = false → step s = .next t →
    (t.unrec = true ↔ t.halted = false ∧ (s.nextInstr = none ∨ ∃ nnn, s.nextInstr = some (.sys nnn)))

/-- The countdown engine (R190): at the end of every committed step each timer, after the instruction's own write,
is decremented by 1 if nonzero; on a faulting step and while halted it is not. -/
def Obligations.TimersCountDownOnEveryCommittedStep : Prop :=
  ∀ s t : State, step s = .next t →
    (t.halted = false →
      t.dt.toNat = (match s.nextInstr with | some (.ldDtVx x) => s.V x | _ => s.dt).toNat - 1 ∧
      t.st.toNat = (match s.nextInstr with | some (.ldStVx x) => s.V x | _ => s.st).toNat - 1) ∧
    (t.halted = true → t.dt = s.dt ∧ t.st = s.st)

/-- R191, R192: `j` steps after the state in which LD DT, Vx (LD ST, Vx) is about to execute, counting that step as
the first and with no other write of the timer, the timer holds max(v - j, 0); the tone flag is 1 exactly while the
sound timer is nonzero, so for v - 1 steps in all. -/
def Obligations.LoadedTimerCountsSteps : Prop :=
  ∀ (s : State) (x : RegIx) (j : Nat), 1 ≤ j →
    (∀ k, k < j → Commits (stepsTo k s) (stepsTo (k + 1) s)) →
    (s.nextInstr = some (.ldDtVx x) →
      (∀ k, 1 ≤ k → k < j → ∀ x', (stepsTo k s).nextInstr ≠ some (.ldDtVx x')) →
      (stepsTo j s).dt.toNat = (s.V x).toNat - j) ∧
    (s.nextInstr = some (.ldStVx x) →
      (∀ k, 1 ≤ k → k < j → ∀ x', (stepsTo k s).nextInstr ≠ some (.ldStVx x')) →
      (stepsTo j s).st.toNat = (s.V x).toNat - j ∧ ((stepsTo j s).tone = true ↔ j < (s.V x).toNat))

/-- The mode of the state machine (R81): a fault is the only way into halted and reset the only way out; only
LD Vx, K enters awaiting-key from running, and only LD Vx, K with a changed key leaves it for running. At `sp` 17 to 31,
which no run reaches, CALL counts as a fault: the model's choice, log entry 4, no rule of the spec. -/
def Obligations.ModeChangesOnlyAsTheStateMachineSays : Prop :=
  ∀ s t : State, step s = .next t →
    (s.mode = .halted → t.mode = .halted) ∧
    (s.mode ≠ .halted → (t.mode = .halted ↔ ∃ f, stepFault s = some f)) ∧
    (s.mode = .running → t.mode = .awaitingKey → ∃ x, s.nextInstr = some (.ldVxK x)) ∧
    (s.mode = .awaitingKey → t.mode = .running → (∃ x, s.nextInstr = some (.ldVxK x)) ∧ s.keys ≠ s.kwSnap) ∧
    s.rst.mode = .running

/-- The invariant of R31 is kept by every step from every state that meets it. `State.Inv` holds, beside R31, the
memory's canonical form (the model's own, log entry 6) and the output flags of a halted core (R204). -/
def Obligations.StepKeepsTheStateInvariant : Prop :=
  ∀ s t : State, s.Inv → step s = .next t → t.Inv

/-- The invariant of StepKeepsTheStateInvariant holds after reset, for every glyph table, and after the reset input in
any state. -/
def Obligations.ResetMeetsTheStateInvariant : Prop :=
  State.reset.Inv ∧ (∀ font, (State.resetWith font).Inv) ∧ ∀ s : State, s.rst.Inv

/-- The invariant of R31 (with what StepKeepsTheStateInvariant adds to it) holds in every state a run from reset and a
load reaches, for every glyph table, program, list of inputs and number of steps. -/
def Obligations.EveryRunKeepsTheStateInvariant : Prop :=
  ∀ (font : Font) (program : List Byte) (inputs : List StepInput) (n : Nat),
    (stepsTo n { (boot font program).state with inputs := inputs }).Inv

/-- The pc stays even from even to even when the step's jump, call, return or offset target is even (R15): sequential
advance adds 2 or 4, and a CALL from an even pc pushes an even address. -/
def Obligations.EvenTargetsKeepThePcEven : Prop :=
  ∀ s t : State, Commits s t → s.pc.toNat % 2 = 0 →
    (∀ nnn, s.nextInstr = some (.jp nnn) ∨ s.nextInstr = some (.call nnn) → nnn.toNat % 2 = 0) →
    (∀ nnn, s.nextInstr = some (.jpV0Nnn nnn) → (nnn.toNat + (s.V 0).toNat) % 2 = 0) →
    (s.nextInstr = some .ret → (s.stackRead (s.sp - 1)).toNat % 2 = 0) →
    t.pc.toNat % 2 = 0 ∧
    (∀ nnn, s.nextInstr = some (.call nnn) → (t.stackRead s.sp).toNat % 2 = 0)

/-! ### What only some instructions change -/

/-- A step changes a general register only when it executes an instruction that names it as destination, defines a
flag outcome in VF, or loads it from memory (R10, R11, R155). -/
def Obligations.RegistersChangeOnlyByTheirWriters : Prop :=
  ∀ (s t : State) (k : RegIx), step s = .next t → t.V k ≠ s.V k →
    ∃ i, s.nextInstr = some i ∧ i.writesReg k

/-- Memory is changed only by the two store instructions, and only at the bytes they store to (R41, R45). -/
def Obligations.MemoryChangesOnlyByStores : Prop :=
  ∀ (s t : State) (a : Nat), step s = .next t → t.readByte a ≠ s.readByte a →
    (∃ x, s.nextInstr = some (.ldBVx x) ∧ s.idx.toNat ≤ a ∧ a ≤ s.idx.toNat + 2) ∨
    (∃ x, s.nextInstr = some (.ldMemVx x) ∧ s.idx.toNat ≤ a ∧ a ≤ s.idx.toNat + x.toNat)

/-- The call stack as a memory (R109): only a committing CALL writes it, at slot `sp`, with pc + 2; `sp` is changed
only by CALL and RET; every other step makes no access. The premise on `sp` is the invariant of R31. -/
def Obligations.StackChangesOnlyByCallAndRet : Prop :=
  ∀ s t : State, s.sp.toNat ≤ 16 → step s = .next t →
    ((∃ nnn, s.nextInstr = some (.call nnn)) ∧ t.halted = false ∧ t.sp.toNat = s.sp.toNat + 1 ∧
      ∀ k (h : k < 16), t.stack[k] = if k = s.sp.toNat then s.pc + 2 else s.stack[k]) ∨
    (s.nextInstr = some .ret ∧ t.halted = false ∧ t.sp.toNat + 1 = s.sp.toNat ∧ t.stack = s.stack ∧
      ∃ h : t.sp.toNat < 16, t.pc = s.stack[t.sp.toNat]) ∨
    (t.sp = s.sp ∧ t.stack = s.stack ∧
      (t.halted = false → (∀ nnn, s.nextInstr ≠ some (.call nnn)) ∧ s.nextInstr ≠ some .ret))

/-- I is written only by LD I, ADD I and LD F (R13), the framebuffer only by CLS and DRW (R22), the key-wait latch
only by LD Vx, K (R23); the glyph-table parameter by nothing (R5). -/
def Obligations.IndexFramebufferAndLatchWriters : Prop :=
  ∀ s t : State, step s = .next t →
    (t.idx ≠ s.idx → (∃ nnn, s.nextInstr = some (.ldINnn nnn)) ∨ (∃ x, s.nextInstr = some (.addIVx x)) ∨
      ∃ x, s.nextInstr = some (.ldFVx x)) ∧
    (t.fb ≠ s.fb → s.nextInstr = some .cls ∨ ∃ x y n, s.nextInstr = some (.drwVxVyN x y n)) ∧
    (t.kwActive ≠ s.kwActive ∨ t.kwSnap ≠ s.kwSnap → ∃ x, s.nextInstr = some (.ldVxK x)) ∧
    t.font = s.font

/-- The inputs reach a program only through four instructions: the keys through SKP, SKNP and LD Vx, K (R180), the
random byte through RND (R140). The sample of a step is the head of the state's list of inputs (the model's own,
log entry 1). The results are compared but for that list, of which a halted core takes nothing. -/
def Obligations.InputsReadOnlyByTheirInstructions : Prop :=
  ∀ (s : State) (a b : StepInput) (rest : List StepInput),
    ({ s with inputs := a :: rest } : State).keys = a.keys ∧ ({ s with inputs := a :: rest } : State).rnd = a.rnd ∧
    (a.rnd = b.rnd →
      (∀ x, s.nextInstr ≠ some (.skpVx x) ∧ s.nextInstr ≠ some (.sknpVx x) ∧ s.nextInstr ≠ some (.ldVxK x)) →
        { stepTo { s with inputs := a :: rest } with inputs := rest } =
          { stepTo { s with inputs := b :: rest } with inputs := rest }) ∧
    (a.keys = b.keys → (∀ x kk, s.nextInstr ≠ some (.rndVxKk x kk)) →
        { stepTo { s with inputs := a :: rest } with inputs := rest } =
          { stepTo { s with inputs := b :: rest } with inputs := rest })

/-- Every step of a core that is not halted takes one sample of the inputs, whether it commits or faults (R80), so the
step after it reads the next one, also when the step faults and the reset input comes between, or any steps of the
halted core (R180: between two steps the vector may change in any way). The list of inputs and the tick are the model's
own (log entry 1). -/
def Obligations.EachStepTakesOneSample : Prop :=
  ∀ s : State, s.halted = false →
    (∀ t, step s = .next t → t.inputs = s.inputs.tail ∧ t.tick = s.tick + 1) ∧
    ∀ (a b : StepInput) (rest : List StepInput) (n : Nat), s.inputs = a :: b :: rest →
      s.keys = a.keys ∧ s.rnd = a.rnd ∧
      (stepTo s).keys = b.keys ∧ (stepTo s).rnd = b.rnd ∧
      ((stepTo s).halted = true →
        (stepsTo n (stepTo s)).rst.keys = b.keys ∧ (stepsTo n (stepTo s)).rst.rnd = b.rnd) ∧
      (stepTo s).rst.keys = b.keys ∧ (stepTo s).rst.rnd = b.rnd

/-! ### Control transfer -/

/-- SYS nnn (R89). -/
def Obligations.SysIsANoOp : Prop :=
  ∀ (s : State) (nnn : Addr), CompletesNext2 (.sys nnn) s { s with unrec := true }

/-- RET (R101). The premise on `sp` is the invariant of R31. -/
def Obligations.RetPopsTheReturnAddress : Prop :=
  ∀ s : State, s.sp.toNat ≤ 16 →
    (s.sp = 0 → exec .ret s = .next (faulted s 4)) ∧
    (∀ h : 0 < s.sp.toNat ∧ s.sp.toNat - 1 < 16,
      exec .ret s = .next { s with sp := s.sp - 1, pc := s.stack[s.sp.toNat - 1]'h.2 })

/-- JP nnn (R102). -/
def Obligations.JpSetsThePc : Prop :=
  ∀ (s : State) (nnn : Addr), exec (.jp nnn) s = .next { s with pc := nnn }

/-- CALL nnn (R103). The premise on `sp` is the invariant of R31. -/
def Obligations.CallPushesTheNextAddress : Prop :=
  ∀ (s : State) (nnn : Addr), s.sp.toNat ≤ 16 →
    (s.sp = 16 → exec (.call nnn) s = .next (faulted s 3)) ∧
    (s.sp.toNat < 16 → 0xFFF < s.pc.toNat + 2 → exec (.call nnn) s = .next (faulted s 2)) ∧
    (∀ h : s.sp.toNat < 16, s.pc.toNat + 2 ≤ 0xFFF →
      exec (.call nnn) s =
        .next { s with stack := s.stack.set s.sp.toNat (s.pc + 2) h, sp := s.sp + 1, pc := nnn })

/-- A RET that meets the stack a CALL left goes to the instruction after the CALL and gives the CALL's stack pointer
back (R101, R103). -/
def Obligations.RetAfterCallReturnsBehindTheCall : Prop :=
  ∀ (s t u : State) (nnn : Addr), s.sp.toNat < 16 → s.pc.toNat ≤ 0xFFD →
    exec (.call nnn) s = .next t → u.sp = t.sp → u.stack = t.stack →
    ∃ v, exec .ret u = .next v ∧ v.pc = s.pc + 2 ∧ v.sp = s.sp ∧ v.halted = u.halted

/-- SE and SNE (R104 to R107). -/
def Obligations.SkipsCompareAndSkip : Prop :=
  ∀ (s : State) (x y : RegIx) (kk : Byte),
    CompletesSkip (.seVxKk x kk) s (s.V x = kk) ∧
    CompletesSkip (.sneVxKk x kk) s (s.V x ≠ kk) ∧
    CompletesSkip (.seVxVy x y) s (s.V x = s.V y) ∧
    CompletesSkip (.sneVxVy x y) s (s.V x ≠ s.V y)

/-- JP V0, nnn (R108): V0 is added, whatever the digits of nnn are. -/
def Obligations.JpV0AddsRegisterZero : Prop :=
  ∀ (s : State) (nnn : Addr),
    (nnn.toNat + (s.V 0).toNat ≤ 0xFFF → exec (.jpV0Nnn nnn) s =
      .next { s with pc := BitVec.ofNat 12 (nnn.toNat + (s.V 0).toNat) }) ∧
    (0xFFF < nnn.toNat + (s.V 0).toNat → exec (.jpV0Nnn nnn) s = .next (faulted s 2))

/-! ### Registers and ALU -/

/-- LD Vx, kk (R120), ADD Vx, kk (R121), LD Vx, Vy (R122), OR (R123), AND (R124), XOR (R125): the destination gets
the result and no flag is written. -/
def Obligations.LoadsAndBitwiseWriteNoFlag : Prop :=
  ∀ (s : State) (x y : RegIx) (kk : Byte),
    CompletesNext2 (.ldVxKk x kk) s { s with regs := s.regs.set x.toNat kk x.isLt } ∧
    CompletesNext2 (.addVxKk x kk) s
      { s with regs := s.regs.set x.toNat (BitVec.ofNat 8 (((s.V x).toNat + kk.toNat) % 256)) x.isLt } ∧
    CompletesNext2 (.ldVxVy x y) s { s with regs := s.regs.set x.toNat (s.V y) x.isLt } ∧
    CompletesNext2 (.orVxVy x y) s { s with regs := s.regs.set x.toNat (s.V x ||| s.V y) x.isLt } ∧
    CompletesNext2 (.andVxVy x y) s { s with regs := s.regs.set x.toNat (s.V x &&& s.V y) x.isLt } ∧
    CompletesNext2 (.xorVxVy x y) s { s with regs := s.regs.set x.toNat (s.V x ^^^ s.V y) x.isLt }

/-- ADD Vx, Vy (R126): the sum modulo 256, then VF = 1 iff the sum exceeds 255; the flag wins when x = 15. -/
def Obligations.AddWritesSumThenCarry : Prop :=
  ∀ (s : State) (x y : RegIx),
    let a := (s.V x).toNat
    let b := (s.V y).toNat
    CompletesNext2 (.addVxVy x y) s
      { s with regs := regsWithFlag s x (BitVec.ofNat 8 ((a + b) % 256)) (if 255 < a + b then 1 else 0) }

/-- SUB Vx, Vy (R127) and SUBN Vx, Vy (R129): the wrapped difference is stored, then VF = 1 iff the minuend is
strictly greater; the flag wins when x = 15. -/
def Obligations.SubtractsWriteDifferenceThenStrictFlag : Prop :=
  ∀ (s : State) (x y : RegIx),
    let a := (s.V x).toNat
    let b := (s.V y).toNat
    CompletesNext2 (.subVxVy x y) s
      { s with regs := regsWithFlag s x (BitVec.ofNat 8 ((256 + a - b) % 256)) (if b < a then 1 else 0) } ∧
    CompletesNext2 (.subnVxVy x y) s
      { s with regs := regsWithFlag s x (BitVec.ofNat 8 ((256 + b - a) % 256)) (if a < b then 1 else 0) }

/-- SHR Vx (R128) and SHL Vx (R130): V[x] moved by one bit in place, then VF = the bit shifted out; the flag wins
when x = 15. -/
def Obligations.ShiftsMoveOneBitThenWriteItToVF : Prop :=
  ∀ (s : State) (x : RegIx),
    let a := (s.V x).toNat
    CompletesNext2 (.shrVx x) s
      { s with regs := regsWithFlag s x (BitVec.ofNat 8 (a / 2)) (BitVec.ofNat 8 (a % 2)) } ∧
    CompletesNext2 (.shlVx x) s
      { s with regs := regsWithFlag s x (BitVec.ofNat 8 (a * 2 % 256)) (BitVec.ofNat 8 (a / 128)) }

/-- RND Vx, kk (R140): the step's random byte, masked, to V[x]; and every byte is possible, whatever the rest of the
state and the keys are. The random byte of a step is `s.rnd`, the sample at the head of the state's inputs, or a free
value where the list is empty (the model's form, log entry 1). -/
def Obligations.RndMasksTheRandomInput : Prop :=
  ∀ (s : State) (x : RegIx) (kk : Byte),
    CompletesNext2 (.rndVxKk x kk) s { s with regs := s.regs.set x.toNat (s.rnd &&& kk) x.isLt } ∧
    ∀ (v : Byte) (k : Keys) (rest : List StepInput),
      ({ s with inputs := ⟨k, v⟩ :: rest } : State).rnd = v ∧
      CompletesNext2 (.rndVxKk x kk) { s with inputs := ⟨k, v⟩ :: rest }
        { s with inputs := ⟨k, v⟩ :: rest, regs := s.regs.set x.toNat (v &&& kk) x.isLt }

/-! ### Index register and memory -/

/-- LD I, nnn (R150), ADD I, Vx (R151), LD F, Vx (R152). -/
def Obligations.IndexInstructionsSetI : Prop :=
  ∀ (s : State) (x : RegIx) (nnn : Addr),
    CompletesNext2 (.ldINnn nnn) s { s with idx := nnn } ∧
    (s.idx.toNat + (s.V x).toNat ≤ 0xFFF →
      CompletesNext2 (.addIVx x) s { s with idx := BitVec.ofNat 12 (s.idx.toNat + (s.V x).toNat) }) ∧
    (0xFFF < s.idx.toNat + (s.V x).toNat → exec (.addIVx x) s = .next (faulted s 6)) ∧
    CompletesNext2 (.ldFVx x) s { s with idx := BitVec.ofNat 12 ((s.V x).toNat * 5) }

/-- LD B, Vx (R153): hundreds, tens and ones at I, I + 1, I + 2; nothing else changes; DataRange, code 5, and
nothing written when I + 2 is above 0xFFF. -/
def Obligations.LdBStoresThreeDigits : Prop :=
  ∀ (s : State) (x : RegIx),
    (0xFFF < s.idx.toNat + 2 → exec (.ldBVx x) s = .next (faulted s 5)) ∧
    (s.idx.toNat + 2 ≤ 0xFFF → ∃ m : List Host.Cell,
      CompletesNext2 (.ldBVx x) s { s with mem := m } ∧
      ∀ a, ({ s with mem := m } : State).readByte a =
        if a = s.idx.toNat then BitVec.ofNat 8 ((s.V x).toNat / 100)
        else if a = s.idx.toNat + 1 then BitVec.ofNat 8 ((s.V x).toNat / 10 % 10)
        else if a = s.idx.toNat + 2 then BitVec.ofNat 8 ((s.V x).toNat % 10)
        else s.readByte a)

/-- LD [I], Vx (R154): V0 to Vx at I to I + x; every other byte and all other state is kept; DataRange and nothing
written when I + x is above 0xFFF. -/
def Obligations.LdMemStoresRegistersInOrder : Prop :=
  ∀ (s : State) (x : RegIx),
    (0xFFF < s.idx.toNat + x.toNat → exec (.ldMemVx x) s = .next (faulted s 5)) ∧
    (s.idx.toNat + x.toNat ≤ 0xFFF → ∃ m : List Host.Cell,
      CompletesNext2 (.ldMemVx x) s { s with mem := m } ∧
      (∀ k : RegIx, k.toNat ≤ x.toNat →
        ({ s with mem := m } : State).readByte (s.idx.toNat + k.toNat) = s.V k) ∧
      ∀ a, (a < s.idx.toNat ∨ s.idx.toNat + x.toNat < a) →
        ({ s with mem := m } : State).readByte a = s.readByte a)

/-- LD Vx, [I] (R155): V0 to Vx from I to I + x; registers above Vx, I and all other state are kept; DataRange and
no register written when I + x is above 0xFFF. -/
def Obligations.LdRegsLoadsMemoryInOrder : Prop :=
  ∀ (s : State) (x : RegIx),
    (0xFFF < s.idx.toNat + x.toNat → exec (.ldVxMem x) s = .next (faulted s 5)) ∧
    (s.idx.toNat + x.toNat ≤ 0xFFF → ∃ r : Vector Byte 16,
      CompletesNext2 (.ldVxMem x) s { s with regs := r } ∧
      ∀ k (h : k < 16), r[k] = if k ≤ x.toNat then s.readByte (s.idx.toNat + k) else s.regs[k])

/-- A store is seen by the next fetch (R50): LD [I], V1 with I at the next instruction makes V0, V1 the word that
the next step fetches. -/
def Obligations.StoredBytesAreFetchedNext : Prop :=
  ∀ s : State, s.nextInstr = some (.ldMemVx 1) → s.idx.toNat = s.pc.toNat + 2 → s.pc.toNat + 3 ≤ 0xFFF →
    ∃ t, step s = .next t ∧ t.pc.toNat = s.pc.toNat + 2 ∧
      t.wordAtPc = some (BitVec.ofNat 16 ((s.V 0).toNat * 256 + (s.V 1).toNat))

/-! ### Display -/

/-- CLS (R170). -/
def Obligations.ClsClearsEveryPixel : Prop :=
  ∀ s : State, ∃ f : Vector (BitVec 64) 32,
    CompletesNext2 .cls s { s with fb := f, redraw := true } ∧
    ∀ y x, ({ s with fb := f } : State).FB y x = false

/-- DRW Vx, Vy, n (R171): each covered pixel is XORed and no other is changed; VF is 1 if a covered pixel was set and
0 otherwise, also when n = 0; redraw is set; DataRange and nothing drawn when a sprite row lies above 0xFFF. -/
def Obligations.DrwXorsTheSpriteAndReportsCollision : Prop :=
  ∀ (s : State) (vx vy : RegIx) (n : Nibble),
    (1 ≤ n.toNat → 0xFFF < s.idx.toNat + n.toNat - 1 → exec (.drwVxVyN vx vy n) s = .next (faulted s 5)) ∧
    ((1 ≤ n.toNat → s.idx.toNat + n.toNat - 1 ≤ 0xFFF) → ∃ (f : Vector (BitVec 64) 32) (vf : Byte),
      CompletesNext2 (.drwVxVyN vx vy n) s { s with fb := f, regs := s.regs.set 15 vf, redraw := true } ∧
      (∀ y x, y < 32 → x < 64 →
        (({ s with fb := f } : State).FB y x = true ↔
          ¬(s.FB y x = true ↔ spriteCovers s vx vy n.toNat y x))) ∧
      ((∃ y x, y < 32 ∧ x < 64 ∧ spriteCovers s vx vy n.toNat y x ∧ s.FB y x = true) → vf = 1) ∧
      ((¬∃ y x, y < 32 ∧ x < 64 ∧ spriteCovers s vx vy n.toNat y x ∧ s.FB y x = true) → vf = 0))

/-- Drawing the same sprite twice at the same place restores the framebuffer, and the second draw reports a collision
when the sprite has a set bit and the first draw met no set pixel (R171, S3). The coordinate registers are not VF,
which the first draw overwrites. -/
def Obligations.DrawingTwiceRestoresTheFramebuffer : Prop :=
  ∀ (s t u : State) (vx vy : RegIx) (n : Nibble), vx ≠ 15 → vy ≠ 15 →
    exec (.drwVxVyN vx vy n) s = .next t → t.halted = false →
    exec (.drwVxVyN vx vy n) { t with pc := s.pc } = .next u →
    u.fb = s.fb ∧
    (t.V 15 = 0 → (∃ y x, spriteCovers s vx vy n.toNat y x) → u.V 15 = 1)

/-! ### Keypad -/

/-- SKP Vx (R181) and SKNP Vx (R182): by the key of index V[x]; KeyIndex, code 7, when V[x] is above 15, before
PcRange. -/
def Obligations.KeySkipsTestTheSampledKey : Prop :=
  ∀ (s : State) (x : RegIx),
    (15 < (s.V x).toNat →
      exec (.skpVx x) s = .next (faulted s 7) ∧ exec (.sknpVx x) s = .next (faulted s 7)) ∧
    ((s.V x).toNat ≤ 15 →
      CompletesSkip (.skpVx x) s (s.keys.getLsbD (s.V x).toNat = true) ∧
      CompletesSkip (.sknpVx x) s (s.keys.getLsbD (s.V x).toNat = false))

/-- LD Vx, K (R183): entry, waiting, and release on the least key that differs from the snapshot. -/
def Obligations.WaitForKeyReportsTheLeastChangedKey : Prop :=
  ∀ (s : State) (x : RegIx),
    (s.kwActive = false → exec (.ldVxK x) s = .next { s with kwSnap := s.keys, kwActive := true }) ∧
    (s.kwActive = true → s.keys = s.kwSnap → exec (.ldVxK x) s = .next s) ∧
    (s.kwActive = true → ∀ k : RegIx, s.keys.getLsbD k.toNat ≠ s.kwSnap.getLsbD k.toNat →
      (∀ j : RegIx, j.toNat < k.toNat → s.keys.getLsbD j.toNat = s.kwSnap.getLsbD j.toNat) →
      CompletesNext2 (.ldVxK x) s
        { s with regs := s.regs.set x.toNat (BitVec.ofNat 8 k.toNat) x.isLt, kwActive := false })

/-- Given keys that do not change across N waiting steps, the pc does not advance, the latch stays active, and no
register, memory byte, stack slot, pixel or fault register changes; the timers go on counting, each step clears the
per-cycle flags and sets `tone` while ST is nonzero (R87, R183, S6). One sample of the inputs is taken a step (the
model's own fields, log entry 1). -/
def Obligations.WaitingStepsFreezeTheProgram : Prop :=
  ∀ (s : State) (x : RegIx) (samples rest : List StepInput),
    s.nextInstr = some (.ldVxK x) → s.kwActive = true → s.inputs = samples ++ rest →
    (∀ a ∈ samples, a.keys = s.kwSnap) →
    let t := stepsTo samples.length s
    t.pc = s.pc ∧ t.regs = s.regs ∧ t.idx = s.idx ∧ t.sp = s.sp ∧ t.stack = s.stack ∧ t.mem = s.mem ∧
    t.fb = s.fb ∧ t.kwActive = true ∧ t.kwSnap = s.kwSnap ∧ t.halted = false ∧ t.inputs = rest ∧
    t.dt.toNat = s.dt.toNat - samples.length ∧ t.st.toNat = s.st.toNat - samples.length ∧
    t.cause = s.cause ∧ t.font = s.font ∧ t.tick = s.tick + samples.length ∧
    (samples ≠ [] → t.redraw = false ∧ t.unrec = false ∧ (t.tone = true ↔ t.st ≠ 0))

/-! ### Timers -/

/-- LD Vx, DT (R193), LD DT, Vx (R194), LD ST, Vx (R195), each with its step: the read is of DT before the decrement
of R190, and a value written is decremented in the same step. -/
def Obligations.TimerInstructionsCopyAroundTheCountdown : Prop :=
  ∀ (s : State) (x : RegIx),
    CompletesNext2 (.ldVxDt x) s { s with regs := s.regs.set x.toNat s.dt x.isLt } ∧
    CompletesNext2 (.ldDtVx x) s { s with dt := s.V x } ∧
    CompletesNext2 (.ldStVx x) s { s with st := s.V x } ∧
    (s.pc.toNat ≤ 0xFFD →
      (s.nextInstr = some (.ldVxDt x) →
        ∃ t, step s = .next t ∧ t.V x = s.dt ∧ t.dt.toNat = s.dt.toNat - 1) ∧
      (s.nextInstr = some (.ldDtVx x) → ∃ t, step s = .next t ∧ t.dt.toNat = (s.V x).toNat - 1) ∧
      (s.nextInstr = some (.ldStVx x) → ∃ t, step s = .next t ∧ t.st.toNat = (s.V x).toNat - 1))

/-! ### Reset, load, and placing a word -/

/-- After reset the state is exactly the table of R30, for every glyph table and whatever the core held before the
reset input (R240); `State.reset` is that of the default glyph table. -/
def Obligations.ResetPutsEveryFieldAtItsValue : Prop :=
  (∀ font, AtReset (State.resetWith font) font) ∧ (∀ s : State, AtReset s.rst s.font) ∧
  AtReset State.reset Config.defaultFont

/-- The default glyph table (R21), row g at 5 g: rests on the default value of FONT, which the spec marks as general
knowledge (log entry 2). -/
def Obligations.DefaultGlyphRowsAreTheTable : Prop :=
  ∀ g (h : g < 16), State.reset.readBytes (5 * g) 5 =
    (#v[[0xF0#8, 0x90#8, 0x90#8, 0x90#8, 0xF0#8], [0x20#8, 0x60#8, 0x20#8, 0x20#8, 0x70#8],
      [0xF0#8, 0x10#8, 0xF0#8, 0x80#8, 0xF0#8], [0xF0#8, 0x10#8, 0xF0#8, 0x10#8, 0xF0#8],
      [0x90#8, 0x90#8, 0xF0#8, 0x10#8, 0x10#8], [0xF0#8, 0x80#8, 0xF0#8, 0x10#8, 0xF0#8],
      [0xF0#8, 0x80#8, 0xF0#8, 0x90#8, 0xF0#8], [0xF0#8, 0x10#8, 0x20#8, 0x40#8, 0x40#8],
      [0xF0#8, 0x90#8, 0xF0#8, 0x90#8, 0xF0#8], [0xF0#8, 0x90#8, 0xF0#8, 0x10#8, 0xF0#8],
      [0xF0#8, 0x90#8, 0xF0#8, 0x90#8, 0x90#8], [0xE0#8, 0x90#8, 0xE0#8, 0x90#8, 0xE0#8],
      [0xF0#8, 0x80#8, 0x80#8, 0x80#8, 0xF0#8], [0xE0#8, 0x90#8, 0x90#8, 0x90#8, 0xE0#8],
      [0xF0#8, 0x80#8, 0xF0#8, 0x80#8, 0xF0#8], [0xF0#8, 0x80#8, 0xF0#8, 0x80#8, 0x80#8]] :
      Vector (List Byte) 16)[g]

/-- The load (R245, R246): the bytes go to 0x200 upward and nothing else changes; more than 3584 bytes are refused
whole, with an error and no byte written. -/
def Obligations.LoadWritesTheProgramOrNothing : Prop :=
  ∀ (s : State) (b : List Byte),
    (b.length ≤ 3584 → ∃ m : List Host.Cell,
      s.load b = ⟨{ s with mem := m }, false⟩ ∧
      (∀ i (h : i < b.length), ({ s with mem := m } : State).readByte (0x200 + i) = b[i]) ∧
      ∀ a, (a < 0x200 ∨ 0x200 + b.length ≤ a) → ({ s with mem := m } : State).readByte a = s.readByte a) ∧
    (3584 < b.length → s.load b = ⟨s, true⟩)

/-- A word placed where the next step fetches it is the word that step fetches, and no other byte changes
(the model's own operation, log entry 10). -/
def Obligations.PlacedWordIsTheNextFetched : Prop :=
  ∀ (s : State) (w : Nat), s.pc.toNat ≤ 0xFFE →
    (s.withFetchWord 16 w).wordAtPc = some (BitVec.ofNat 16 w) ∧
    (∃ m : List Host.Cell, s.withFetchWord 16 w = { s with mem := m }) ∧
    ∀ a, a ≠ s.pc.toNat → a ≠ s.pc.toNat + 1 → (s.withFetchWord 16 w).readByte a = s.readByte a
end

