-- ==== Sys2Proof/Laws/Decode.lean ====
section
/-! SUPPORT. The fields of the words the encoder writes, one lemma per field and format. -/

namespace Sys2Proof

theorem fieldN3_formatA (op : Nibble) (a : Addr) : fieldN3 (formatA op a) = op := by
  apply BitVec.eq_of_toNat_eq
  simp only [fieldN3, formatA, BitVec.extractLsb'_toNat, BitVec.toNat_append]
  rw [(Nat.shiftLeft_add_eq_or_of_lt a.isLt _).symm, Nat.shiftRight_eq_div_pow, Nat.shiftLeft_eq]
  have := a.isLt; have := op.isLt; omega

theorem fieldNnn_formatA (op : Nibble) (a : Addr) : fieldNnn (formatA op a) = a := by
  apply BitVec.eq_of_toNat_eq
  simp only [fieldNnn, formatA, BitVec.extractLsb'_toNat, BitVec.toNat_append]
  rw [(Nat.shiftLeft_add_eq_or_of_lt a.isLt _).symm, Nat.shiftRight_eq_div_pow, Nat.shiftLeft_eq]
  have := a.isLt; have := op.isLt; omega

theorem formatXK_toNat (op : Nibble) (x : RegIx) (kk : Byte) :
    (formatXK op x kk).toNat = op.toNat * 4096 + x.toNat * 256 + kk.toNat := by
  simp only [formatXK, BitVec.toNat_append]
  rw [(Nat.shiftLeft_add_eq_or_of_lt x.isLt _).symm, (Nat.shiftLeft_add_eq_or_of_lt kk.isLt _).symm]
  simp only [Nat.shiftLeft_eq]; omega

theorem formatXYN_toNat (op : Nibble) (x y : RegIx) (n : Nibble) :
    (formatXYN op x y n).toNat = op.toNat * 4096 + x.toNat * 256 + y.toNat * 16 + n.toNat := by
  simp only [formatXYN, BitVec.toNat_append]
  rw [(Nat.shiftLeft_add_eq_or_of_lt x.isLt _).symm, (Nat.shiftLeft_add_eq_or_of_lt y.isLt _).symm,
    (Nat.shiftLeft_add_eq_or_of_lt n.isLt _).symm]
  simp only [Nat.shiftLeft_eq]; omega

/-! The fields of a word as arithmetic on its number. -/

theorem fieldN3_toNat (w : Word) : (fieldN3 w).toNat = w.toNat / 4096 := by
  have := w.isLt
  simp only [fieldN3, BitVec.extractLsb'_toNat, Nat.shiftRight_eq_div_pow]; omega

theorem fieldX_toNat (w : Word) : (fieldX w).toNat = w.toNat / 256 % 16 := by
  simp only [fieldX, BitVec.extractLsb'_toNat, Nat.shiftRight_eq_div_pow]

theorem fieldY_toNat (w : Word) : (fieldY w).toNat = w.toNat / 16 % 16 := by
  simp only [fieldY, BitVec.extractLsb'_toNat, Nat.shiftRight_eq_div_pow]

theorem fieldN_toNat (w : Word) : (fieldN w).toNat = w.toNat % 16 := by
  simp only [fieldN, BitVec.extractLsb'_toNat, Nat.shiftRight_eq_div_pow]; omega

theorem fieldKk_toNat (w : Word) : (fieldKk w).toNat = w.toNat % 256 := by
  simp only [fieldKk, BitVec.extractLsb'_toNat, Nat.shiftRight_eq_div_pow]; omega

theorem fieldNnn_toNat (w : Word) : (fieldNnn w).toNat = w.toNat % 4096 := by
  simp only [fieldNnn, BitVec.extractLsb'_toNat, Nat.shiftRight_eq_div_pow]; omega

theorem fieldN3_formatXK (op : Nibble) (x : RegIx) (kk : Byte) : fieldN3 (formatXK op x kk) = op := by
  apply BitVec.eq_of_toNat_eq
  have := x.isLt; have := kk.isLt
  rw [fieldN3_toNat, formatXK_toNat]; omega

theorem fieldX_formatXK (op : Nibble) (x : RegIx) (kk : Byte) : fieldX (formatXK op x kk) = x := by
  apply BitVec.eq_of_toNat_eq
  have := x.isLt; have := kk.isLt
  rw [fieldX_toNat, formatXK_toNat]; omega

theorem fieldKk_formatXK (op : Nibble) (x : RegIx) (kk : Byte) : fieldKk (formatXK op x kk) = kk := by
  apply BitVec.eq_of_toNat_eq
  have := x.isLt; have := kk.isLt
  rw [fieldKk_toNat, formatXK_toNat]; omega

theorem fieldN3_formatXYN (op : Nibble) (x y : RegIx) (n : Nibble) : fieldN3 (formatXYN op x y n) = op := by
  apply BitVec.eq_of_toNat_eq
  have := x.isLt; have := y.isLt; have := n.isLt
  rw [fieldN3_toNat, formatXYN_toNat]; omega

theorem fieldX_formatXYN (op : Nibble) (x y : RegIx) (n : Nibble) : fieldX (formatXYN op x y n) = x := by
  apply BitVec.eq_of_toNat_eq
  have := x.isLt; have := y.isLt; have := n.isLt
  rw [fieldX_toNat, formatXYN_toNat]; omega

theorem fieldY_formatXYN (op : Nibble) (x y : RegIx) (n : Nibble) : fieldY (formatXYN op x y n) = y := by
  apply BitVec.eq_of_toNat_eq
  have := x.isLt; have := y.isLt; have := n.isLt
  rw [fieldY_toNat, formatXYN_toNat]; omega

theorem fieldN_formatXYN (op : Nibble) (x y : RegIx) (n : Nibble) : fieldN (formatXYN op x y n) = n := by
  apply BitVec.eq_of_toNat_eq
  have := x.isLt; have := y.isLt; have := n.isLt
  rw [fieldN_toNat, formatXYN_toNat]; omega

/-- Laying a word out as bytes and joining them again gives the word (R42). -/
theorem wordOfBytes_bytesOfWord (w : Word) : wordOfBytes (w.extractLsb' 8 8) (w.extractLsb' 0 8) = w := by
  apply BitVec.eq_of_toNat_eq
  have := w.isLt
  simp only [wordOfBytes, BitVec.toNat_append]
  rw [(Nat.shiftLeft_add_eq_or_of_lt (w.extractLsb' 0 8).isLt _).symm]
  simp only [BitVec.extractLsb'_toNat, Nat.shiftLeft_eq, Nat.shiftRight_eq_div_pow]; omega

end Sys2Proof
end

