-- ==== Sys2Proof/Laws/State.lean ====
section
/-! SUPPORT. One lemma per field per update of State: what each shared update writes and what it keeps. -/

namespace Sys2Proof.Machine

@[simp] theorem State.setV_regs (s : State) (x : RegIx) (v : Byte) : (s.setV x v).regs = s.regs.set x.toNat v x.isLt := rfl
@[simp] theorem State.setV_idx (s : State) (x : RegIx) (v : Byte) : (s.setV x v).idx = s.idx := rfl
@[simp] theorem State.setV_pc (s : State) (x : RegIx) (v : Byte) : (s.setV x v).pc = s.pc := rfl
@[simp] theorem State.setV_sp (s : State) (x : RegIx) (v : Byte) : (s.setV x v).sp = s.sp := rfl
@[simp] theorem State.setV_stack (s : State) (x : RegIx) (v : Byte) : (s.setV x v).stack = s.stack := rfl
@[simp] theorem State.setV_dt (s : State) (x : RegIx) (v : Byte) : (s.setV x v).dt = s.dt := rfl
@[simp] theorem State.setV_st (s : State) (x : RegIx) (v : Byte) : (s.setV x v).st = s.st := rfl
@[simp] theorem State.setV_mem (s : State) (x : RegIx) (v : Byte) : (s.setV x v).mem = s.mem := rfl
@[simp] theorem State.setV_fb (s : State) (x : RegIx) (v : Byte) : (s.setV x v).fb = s.fb := rfl
@[simp] theorem State.setV_kwActive (s : State) (x : RegIx) (v : Byte) : (s.setV x v).kwActive = s.kwActive := rfl
@[simp] theorem State.setV_kwSnap (s : State) (x : RegIx) (v : Byte) : (s.setV x v).kwSnap = s.kwSnap := rfl
@[simp] theorem State.setV_halted (s : State) (x : RegIx) (v : Byte) : (s.setV x v).halted = s.halted := rfl
@[simp] theorem State.setV_cause (s : State) (x : RegIx) (v : Byte) : (s.setV x v).cause = s.cause := rfl
@[simp] theorem State.setV_redraw (s : State) (x : RegIx) (v : Byte) : (s.setV x v).redraw = s.redraw := rfl
@[simp] theorem State.setV_tone (s : State) (x : RegIx) (v : Byte) : (s.setV x v).tone = s.tone := rfl
@[simp] theorem State.setV_unrec (s : State) (x : RegIx) (v : Byte) : (s.setV x v).unrec = s.unrec := rfl
@[simp] theorem State.setV_font (s : State) (x : RegIx) (v : Byte) : (s.setV x v).font = s.font := rfl
@[simp] theorem State.setV_inputs (s : State) (x : RegIx) (v : Byte) : (s.setV x v).inputs = s.inputs := rfl
@[simp] theorem State.setV_tick (s : State) (x : RegIx) (v : Byte) : (s.setV x v).tick = s.tick := rfl

@[simp] theorem State.raise_regs (s : State) (f : CoreFault) : (s.raise f).regs = s.regs := rfl
@[simp] theorem State.raise_idx (s : State) (f : CoreFault) : (s.raise f).idx = s.idx := rfl
@[simp] theorem State.raise_pc (s : State) (f : CoreFault) : (s.raise f).pc = s.pc := rfl
@[simp] theorem State.raise_sp (s : State) (f : CoreFault) : (s.raise f).sp = s.sp := rfl
@[simp] theorem State.raise_stack (s : State) (f : CoreFault) : (s.raise f).stack = s.stack := rfl
@[simp] theorem State.raise_dt (s : State) (f : CoreFault) : (s.raise f).dt = s.dt := rfl
@[simp] theorem State.raise_st (s : State) (f : CoreFault) : (s.raise f).st = s.st := rfl
@[simp] theorem State.raise_mem (s : State) (f : CoreFault) : (s.raise f).mem = s.mem := rfl
@[simp] theorem State.raise_fb (s : State) (f : CoreFault) : (s.raise f).fb = s.fb := rfl
@[simp] theorem State.raise_kwActive (s : State) (f : CoreFault) : (s.raise f).kwActive = s.kwActive := rfl
@[simp] theorem State.raise_kwSnap (s : State) (f : CoreFault) : (s.raise f).kwSnap = s.kwSnap := rfl
@[simp] theorem State.raise_halted (s : State) (f : CoreFault) : (s.raise f).halted = true := rfl
@[simp] theorem State.raise_cause (s : State) (f : CoreFault) : (s.raise f).cause = causeCode f := rfl
@[simp] theorem State.raise_redraw (s : State) (f : CoreFault) : (s.raise f).redraw = false := rfl
@[simp] theorem State.raise_tone (s : State) (f : CoreFault) : (s.raise f).tone = false := rfl
@[simp] theorem State.raise_unrec (s : State) (f : CoreFault) : (s.raise f).unrec = false := rfl
@[simp] theorem State.raise_font (s : State) (f : CoreFault) : (s.raise f).font = s.font := rfl
@[simp] theorem State.raise_inputs (s : State) (f : CoreFault) : (s.raise f).inputs = s.inputs := rfl
@[simp] theorem State.raise_tick (s : State) (f : CoreFault) : (s.raise f).tick = s.tick := rfl

@[simp] theorem State.clearCycleFlags_regs (s : State) : (s.clearCycleFlags).regs = s.regs := rfl
@[simp] theorem State.clearCycleFlags_idx (s : State) : (s.clearCycleFlags).idx = s.idx := rfl
@[simp] theorem State.clearCycleFlags_pc (s : State) : (s.clearCycleFlags).pc = s.pc := rfl
@[simp] theorem State.clearCycleFlags_sp (s : State) : (s.clearCycleFlags).sp = s.sp := rfl
@[simp] theorem State.clearCycleFlags_stack (s : State) : (s.clearCycleFlags).stack = s.stack := rfl
@[simp] theorem State.clearCycleFlags_dt (s : State) : (s.clearCycleFlags).dt = s.dt := rfl
@[simp] theorem State.clearCycleFlags_st (s : State) : (s.clearCycleFlags).st = s.st := rfl
@[simp] theorem State.clearCycleFlags_mem (s : State) : (s.clearCycleFlags).mem = s.mem := rfl
@[simp] theorem State.clearCycleFlags_fb (s : State) : (s.clearCycleFlags).fb = s.fb := rfl
@[simp] theorem State.clearCycleFlags_kwActive (s : State) : (s.clearCycleFlags).kwActive = s.kwActive := rfl
@[simp] theorem State.clearCycleFlags_kwSnap (s : State) : (s.clearCycleFlags).kwSnap = s.kwSnap := rfl
@[simp] theorem State.clearCycleFlags_halted (s : State) : (s.clearCycleFlags).halted = s.halted := rfl
@[simp] theorem State.clearCycleFlags_cause (s : State) : (s.clearCycleFlags).cause = s.cause := rfl
@[simp] theorem State.clearCycleFlags_redraw (s : State) : (s.clearCycleFlags).redraw = false := rfl
@[simp] theorem State.clearCycleFlags_tone (s : State) : (s.clearCycleFlags).tone = false := rfl
@[simp] theorem State.clearCycleFlags_unrec (s : State) : (s.clearCycleFlags).unrec = false := rfl
@[simp] theorem State.clearCycleFlags_font (s : State) : (s.clearCycleFlags).font = s.font := rfl
@[simp] theorem State.clearCycleFlags_inputs (s : State) : (s.clearCycleFlags).inputs = s.inputs := rfl
@[simp] theorem State.clearCycleFlags_tick (s : State) : (s.clearCycleFlags).tick = s.tick := rfl

@[simp] theorem State.tickTimers_regs (s : State) : (s.tickTimers).regs = s.regs := rfl
@[simp] theorem State.tickTimers_idx (s : State) : (s.tickTimers).idx = s.idx := rfl
@[simp] theorem State.tickTimers_pc (s : State) : (s.tickTimers).pc = s.pc := rfl
@[simp] theorem State.tickTimers_sp (s : State) : (s.tickTimers).sp = s.sp := rfl
@[simp] theorem State.tickTimers_stack (s : State) : (s.tickTimers).stack = s.stack := rfl
@[simp] theorem State.tickTimers_dt (s : State) : (s.tickTimers).dt = countdown s.dt := rfl
@[simp] theorem State.tickTimers_st (s : State) : (s.tickTimers).st = countdown s.st := rfl
@[simp] theorem State.tickTimers_mem (s : State) : (s.tickTimers).mem = s.mem := rfl
@[simp] theorem State.tickTimers_fb (s : State) : (s.tickTimers).fb = s.fb := rfl
@[simp] theorem State.tickTimers_kwActive (s : State) : (s.tickTimers).kwActive = s.kwActive := rfl
@[simp] theorem State.tickTimers_kwSnap (s : State) : (s.tickTimers).kwSnap = s.kwSnap := rfl
@[simp] theorem State.tickTimers_halted (s : State) : (s.tickTimers).halted = s.halted := rfl
@[simp] theorem State.tickTimers_cause (s : State) : (s.tickTimers).cause = s.cause := rfl
@[simp] theorem State.tickTimers_redraw (s : State) : (s.tickTimers).redraw = s.redraw := rfl
@[simp] theorem State.tickTimers_tone (s : State) : (s.tickTimers).tone = (countdown s.st != 0) := rfl
@[simp] theorem State.tickTimers_unrec (s : State) : (s.tickTimers).unrec = s.unrec := rfl
@[simp] theorem State.tickTimers_font (s : State) : (s.tickTimers).font = s.font := rfl
@[simp] theorem State.tickTimers_inputs (s : State) : (s.tickTimers).inputs = s.inputs := rfl
@[simp] theorem State.tickTimers_tick (s : State) : (s.tickTimers).tick = s.tick := rfl

@[simp] theorem State.consumeInput_regs (s : State) : (s.consumeInput).regs = s.regs := rfl
@[simp] theorem State.consumeInput_idx (s : State) : (s.consumeInput).idx = s.idx := rfl
@[simp] theorem State.consumeInput_pc (s : State) : (s.consumeInput).pc = s.pc := rfl
@[simp] theorem State.consumeInput_sp (s : State) : (s.consumeInput).sp = s.sp := rfl
@[simp] theorem State.consumeInput_stack (s : State) : (s.consumeInput).stack = s.stack := rfl
@[simp] theorem State.consumeInput_dt (s : State) : (s.consumeInput).dt = s.dt := rfl
@[simp] theorem State.consumeInput_st (s : State) : (s.consumeInput).st = s.st := rfl
@[simp] theorem State.consumeInput_mem (s : State) : (s.consumeInput).mem = s.mem := rfl
@[simp] theorem State.consumeInput_fb (s : State) : (s.consumeInput).fb = s.fb := rfl
@[simp] theorem State.consumeInput_kwActive (s : State) : (s.consumeInput).kwActive = s.kwActive := rfl
@[simp] theorem State.consumeInput_kwSnap (s : State) : (s.consumeInput).kwSnap = s.kwSnap := rfl
@[simp] theorem State.consumeInput_halted (s : State) : (s.consumeInput).halted = s.halted := rfl
@[simp] theorem State.consumeInput_cause (s : State) : (s.consumeInput).cause = s.cause := rfl
@[simp] theorem State.consumeInput_redraw (s : State) : (s.consumeInput).redraw = s.redraw := rfl
@[simp] theorem State.consumeInput_tone (s : State) : (s.consumeInput).tone = s.tone := rfl
@[simp] theorem State.consumeInput_unrec (s : State) : (s.consumeInput).unrec = s.unrec := rfl
@[simp] theorem State.consumeInput_font (s : State) : (s.consumeInput).font = s.font := rfl
@[simp] theorem State.consumeInput_inputs (s : State) : (s.consumeInput).inputs = s.inputs.tail := rfl
@[simp] theorem State.consumeInput_tick (s : State) : (s.consumeInput).tick = s.tick + 1 := rfl

@[simp] theorem State.stackWrite_regs (s : State) (p : BitVec 5) (a : Addr) : (s.stackWrite p a).regs = s.regs := rfl
@[simp] theorem State.stackWrite_idx (s : State) (p : BitVec 5) (a : Addr) : (s.stackWrite p a).idx = s.idx := rfl
@[simp] theorem State.stackWrite_pc (s : State) (p : BitVec 5) (a : Addr) : (s.stackWrite p a).pc = s.pc := rfl
@[simp] theorem State.stackWrite_sp (s : State) (p : BitVec 5) (a : Addr) : (s.stackWrite p a).sp = s.sp := rfl
@[simp] theorem State.stackWrite_stack (s : State) (p : BitVec 5) (a : Addr) : (s.stackWrite p a).stack = s.stack.set (stackSlot p) a (Nat.mod_lt _ (by decide)) := rfl
@[simp] theorem State.stackWrite_dt (s : State) (p : BitVec 5) (a : Addr) : (s.stackWrite p a).dt = s.dt := rfl
@[simp] theorem State.stackWrite_st (s : State) (p : BitVec 5) (a : Addr) : (s.stackWrite p a).st = s.st := rfl
@[simp] theorem State.stackWrite_mem (s : State) (p : BitVec 5) (a : Addr) : (s.stackWrite p a).mem = s.mem := rfl
@[simp] theorem State.stackWrite_fb (s : State) (p : BitVec 5) (a : Addr) : (s.stackWrite p a).fb = s.fb := rfl
@[simp] theorem State.stackWrite_kwActive (s : State) (p : BitVec 5) (a : Addr) : (s.stackWrite p a).kwActive = s.kwActive := rfl
@[simp] theorem State.stackWrite_kwSnap (s : State) (p : BitVec 5) (a : Addr) : (s.stackWrite p a).kwSnap = s.kwSnap := rfl
@[simp] theorem State.stackWrite_halted (s : State) (p : BitVec 5) (a : Addr) : (s.stackWrite p a).halted = s.halted := rfl
@[simp] theorem State.stackWrite_cause (s : State) (p : BitVec 5) (a : Addr) : (s.stackWrite p a).cause = s.cause := rfl
@[simp] theorem State.stackWrite_redraw (s : State) (p : BitVec 5) (a : Addr) : (s.stackWrite p a).redraw = s.redraw := rfl
@[simp] theorem State.stackWrite_tone (s : State) (p : BitVec 5) (a : Addr) : (s.stackWrite p a).tone = s.tone := rfl
@[simp] theorem State.stackWrite_unrec (s : State) (p : BitVec 5) (a : Addr) : (s.stackWrite p a).unrec = s.unrec := rfl
@[simp] theorem State.stackWrite_font (s : State) (p : BitVec 5) (a : Addr) : (s.stackWrite p a).font = s.font := rfl
@[simp] theorem State.stackWrite_inputs (s : State) (p : BitVec 5) (a : Addr) : (s.stackWrite p a).inputs = s.inputs := rfl
@[simp] theorem State.stackWrite_tick (s : State) (p : BitVec 5) (a : Addr) : (s.stackWrite p a).tick = s.tick := rfl

@[simp] theorem State.setVF_eq (s : State) (v : Byte) : s.setVF v = s.setV 15 v := rfl
@[simp] theorem State.setVAndFlag_eq (s : State) (x : RegIx) (v f : Byte) :
    s.setVAndFlag x v f = (s.setV x v).setV 15 f := rfl
theorem State.raise_eq_faulted (s : State) (f : CoreFault) : s.raise f = faulted s (causeCode f) := rfl

end Sys2Proof.Machine
end

