-- ==== Sys2Proof/Laws/Display.lean ====
section
/-! SUPPORT. Laws of the framebuffer and of drawing. -/

namespace Sys2Proof.Machine

/-- Toggling a pixel flips that pixel and no other. -/
theorem pixel_togglePixel (fb : Vector (BitVec 64) 32) (py px y x : Nat) :
    pixel (togglePixel fb py px) y x =
      (pixel fb y x ^^ decide (py % 32 = y % 32 ∧ px % 64 = x % 64)) := by
  unfold pixel togglePixel
  rw [Vector.getElem_set]
  by_cases hy : py % 32 = y % 32
  · simp only [hy, ite_true, BitVec.getLsbD_xor, BitVec.getLsbD_twoPow, true_and]
    congr 1
    by_cases hx : px % 64 = x % 64
    · simp [hx]; omega
    · simp [hx]
  · simp [hy]

/-- The pixels of a list of bits of row `r`, from column `c`: after drawing, a pixel is flipped once for each set bit
that falls on it, and the hit flag says whether a set pixel was met. The columns drawn are fewer than 64, so no pixel
is met twice. -/
theorem drawBits_spec (vx vy r : Nat) (bits : List Bool) :
    ∀ (c : Nat) (acc : Vector (BitVec 64) 32 × Bool), bits.length ≤ 64 →
      (∀ y x, pixel (drawBits vx vy r c bits acc).1 y x =
        (pixel acc.1 y x ^^ decide ((vy + r) % 32 = y % 32 ∧
          ∃ k, ∃ h : k < bits.length, bits[k] = true ∧ (vx + (c + k)) % 64 = x % 64))) ∧
      ((drawBits vx vy r c bits acc).2 = true ↔ acc.2 = true ∨
        ∃ k, ∃ h : k < bits.length, bits[k] = true ∧ pixel acc.1 (vy + r) (vx + (c + k)) = true) := by
  induction bits with
  | nil => intro c acc _; simp [drawBits]
  | cons b bs ih =>
    intro c acc hl
    simp only [List.length_cons] at hl
    obtain ⟨ih1, ih2⟩ := ih (c + 1) (if b then drawPixel vx vy r c acc else acc) (by omega)
    have key : ∀ (Q : Nat → Prop), (∃ k, ∃ h : k < (b :: bs).length, (b :: bs)[k] = true ∧ Q (c + k)) ↔
        (b = true ∧ Q c) ∨ ∃ k, ∃ h : k < bs.length, bs[k] = true ∧ Q (c + 1 + k) := by
      intro Q
      constructor
      · rintro ⟨k, h, hb, hq⟩
        cases k with
        | zero => exact .inl ⟨by simpa using hb, by simpa using hq⟩
        | succ k =>
          refine .inr ⟨k, by simpa using h, by simpa using hb, ?_⟩
          rwa [show c + 1 + k = c + (k + 1) by omega]
      · rintro (⟨hb, hq⟩ | ⟨k, h, hb, hq⟩)
        · exact ⟨0, by simp, by simpa using hb, by simpa using hq⟩
        · refine ⟨k + 1, by simpa using h, by simpa using hb, ?_⟩
          rwa [show c + (k + 1) = c + 1 + k by omega]
    constructor
    · intro y x
      simp only [drawBits]
      rw [ih1 y x]
      simp only [key (fun j => (vx + j) % 64 = x % 64)]
      cases b with
      | false => simp
      | true =>
        simp only [if_true, drawPixel, true_and]
        rw [pixel_togglePixel, Bool.xor_assoc]
        congr 1
        have hdisj : (vx + c) % 64 = x % 64 →
            ¬ ∃ k, ∃ h : k < bs.length, bs[k] = true ∧ (vx + (c + 1 + k)) % 64 = x % 64 := by
          rintro h1 ⟨k, hk, _, h2⟩; omega
        by_cases hy : (vy + r) % 32 = y % 32
        · by_cases hx : (vx + c) % 64 = x % 64
          · simp only [hy, hx, true_and, true_or, decide_true]
            rw [decide_eq_false (hdisj hx)]; rfl
          · simp [hy, hx]
        · simp [hy]
    · simp only [drawBits]
      rw [ih2, key (fun j => pixel acc.1 (vy + r) (vx + j) = true)]
      cases b with
      | false => simp
      | true =>
        simp only [if_true, drawPixel, true_and, Bool.or_eq_true]
        have hsame : ∀ k, k < bs.length → pixel (togglePixel acc.1 (vy + r) (vx + c)) (vy + r) (vx + (c + 1 + k)) =
            pixel acc.1 (vy + r) (vx + (c + 1 + k)) := by
          intro k hk
          rw [pixel_togglePixel]
          have : ¬ (vx + c) % 64 = (vx + (c + 1 + k)) % 64 := by omega
          simp [this]
        constructor
        · rintro ((h | h) | ⟨k, hk, hb, hp⟩)
          · exact .inl h
          · exact .inr (.inl h)
          · exact .inr (.inr ⟨k, hk, hb, by rwa [hsame k hk] at hp⟩)
        · rintro (h | h | ⟨k, hk, hb, hp⟩)
          · exact .inl (.inl h)
          · exact .inl (.inr h)
          · exact .inr ⟨k, hk, hb, by rwa [hsame k hk]⟩

/-- Column `c` of a sprite byte is bit `7 - c` (R171). -/
theorem spriteBits_getElem (b : Byte) (c : Nat) (h : c < 8) :
    (spriteBits b)[c]'(by simpa [spriteBits] using h) = b.getLsbD (7 - c) := by
  rcases c with _ | _ | _ | _ | _ | _ | _ | _ | c <;> first | rfl | omega

theorem xor_decide_iff (a : Bool) (P : Prop) [Decidable P] : (a ^^ decide P) = true ↔ ¬(a = true ↔ P) := by
  by_cases h : P <;> cases a <;> simp [h]

/-- Flipping on A and then on B is flipping on A or B, when the two exclude each other. -/
theorem flip_twice_apart {O A B : Prop} (h : A → ¬B) : ¬((¬(O ↔ A)) ↔ B) ↔ ¬(O ↔ (A ∨ B)) := by
  by_cases hA : A
  · simp [hA, h hA]
  · by_cases hO : O <;> simp [hA, hO]

/-- The rows of a list of bytes from row `r`: after drawing, exactly the pixels of set sprite bits are flipped, and
the hit flag says whether one of them was set before. The rows drawn are fewer than 32, so no pixel is met twice. -/
theorem drawRows_spec (vx vy : Nat) (bytes : List Byte) :
    ∀ (r : Nat) (acc : Vector (BitVec 64) 32 × Bool), bytes.length ≤ 32 →
      (∀ y x, pixel (drawRows vx vy r bytes acc).1 y x = true ↔
        ¬(pixel acc.1 y x = true ↔ ∃ j, ∃ h : j < bytes.length, (vy + (r + j)) % 32 = y % 32 ∧
          ∃ c, c < 8 ∧ bytes[j].getLsbD (7 - c) = true ∧ (vx + c) % 64 = x % 64)) ∧
      ((drawRows vx vy r bytes acc).2 = true ↔ acc.2 = true ∨
        ∃ j, ∃ h : j < bytes.length, ∃ c, c < 8 ∧ bytes[j].getLsbD (7 - c) = true ∧
          pixel acc.1 (vy + (r + j)) (vx + c) = true) := by
  induction bytes with
  | nil => intro r acc _; simp [drawRows]
  | cons b bs ih =>
    intro r acc hl
    simp only [List.length_cons] at hl
    obtain ⟨ih1, ih2⟩ := ih (r + 1) (drawBits vx vy r 0 (spriteBits b) acc) (by omega)
    obtain ⟨hb1, hb2⟩ := drawBits_spec vx vy r (spriteBits b) 0 acc (by simp [spriteBits])
    have bitsEx : ∀ (Q : Nat → Prop), (∃ k, ∃ h : k < (spriteBits b).length, (spriteBits b)[k] = true ∧ Q (0 + k)) ↔
        ∃ c, c < 8 ∧ b.getLsbD (7 - c) = true ∧ Q c := by
      intro Q
      constructor
      · rintro ⟨k, h, hk, hq⟩
        have h8 : k < 8 := by simpa [spriteBits] using h
        exact ⟨k, h8, by rwa [← spriteBits_getElem b k h8], by simpa using hq⟩
      · rintro ⟨c, h8, hc, hq⟩
        exact ⟨c, by simpa [spriteBits] using h8, by rwa [spriteBits_getElem b c h8], by simpa using hq⟩
    have key : ∀ (Q : Nat → Byte → Prop), (∃ j, ∃ h : j < (b :: bs).length, Q (r + j) (b :: bs)[j]) ↔
        Q r b ∨ ∃ j, ∃ h : j < bs.length, Q (r + 1 + j) bs[j] := by
      intro Q
      constructor
      · rintro ⟨j, h, hq⟩
        cases j with
        | zero => exact .inl (by simpa using hq)
        | succ j =>
          refine .inr ⟨j, by simpa using h, ?_⟩
          rw [show r + 1 + j = r + (j + 1) by omega]; simpa using hq
      · rintro (hq | ⟨j, h, hq⟩)
        · exact ⟨0, by simp, by simpa using hq⟩
        · refine ⟨j + 1, by simpa using h, ?_⟩
          rw [show r + (j + 1) = r + 1 + j by omega]; simpa using hq
    constructor
    · intro y x
      simp only [drawRows]
      have hmid : pixel (drawBits vx vy r 0 (spriteBits b) acc).1 y x = true ↔
          ¬(pixel acc.1 y x = true ↔ ((vy + r) % 32 = y % 32 ∧
            ∃ c, c < 8 ∧ b.getLsbD (7 - c) = true ∧ (vx + c) % 64 = x % 64)) := by
        rw [hb1 y x, xor_decide_iff, bitsEx (fun c => (vx + c) % 64 = x % 64)]
      have hno : (vy + r) % 32 = y % 32 → ¬ ∃ j, ∃ h : j < bs.length, (vy + (r + 1 + j)) % 32 = y % 32 ∧
          ∃ c, c < 8 ∧ bs[j].getLsbD (7 - c) = true ∧ (vx + c) % 64 = x % 64 := by
        rintro h1 ⟨j, hj, h2, _⟩; omega
      rw [ih1 y x, hmid, key (fun row byte => (vy + row) % 32 = y % 32 ∧
        ∃ c, c < 8 ∧ byte.getLsbD (7 - c) = true ∧ (vx + c) % 64 = x % 64)]
      exact flip_twice_apart fun h1 => hno h1.1
    · simp only [drawRows]
      rw [ih2, hb2, bitsEx (fun c => pixel acc.1 (vy + r) (vx + c) = true),
        key (fun row byte => ∃ c, c < 8 ∧ byte.getLsbD (7 - c) = true ∧ pixel acc.1 (vy + row) (vx + c) = true)]
      have hsame : ∀ j, j < bs.length → ∀ x, pixel (drawBits vx vy r 0 (spriteBits b) acc).1 (vy + (r + 1 + j)) x =
          pixel acc.1 (vy + (r + 1 + j)) x := by
        intro j hj x
        rw [hb1]
        have : ¬ (vy + r) % 32 = (vy + (r + 1 + j)) % 32 := by omega
        simp [this]
      constructor
      · rintro ((h | h) | ⟨j, hj, c, hc, hb, hp⟩)
        · exact .inl h
        · exact .inr (.inl h)
        · exact .inr (.inr ⟨j, hj, c, hc, hb, by rwa [hsame j hj] at hp⟩)
      · rintro (h | h | ⟨j, hj, c, hc, hb, hp⟩)
        · exact .inl (.inl h)
        · exact .inl (.inr h)
        · exact .inr ⟨j, hj, c, hc, hb, by rwa [hsame j hj]⟩

/-- A cleared framebuffer has no set pixel. -/
theorem pixel_zero (y x : Nat) : pixel (Vector.replicate 32 0) y x = false := by
  simp [pixel]

end Sys2Proof.Machine
end

