-- ==== Sys2Proof/Laws/Memory.lean ====
section
/-! SUPPORT. Laws of memory: read after write, and that every memory operation keeps the canonical form. -/

namespace Sys2Proof.Machine

theorem Memory.read_erase_same (d : Byte) (a : Nat) (m : List Host.Cell) :
    Memory.read d a (Memory.erase a m) = d := by
  induction m with
  | nil => rfl
  | cons c rest ih =>
    obtain ⟨b, w⟩ := c
    simp only [Memory.erase]
    split
    · exact ih
    · rename_i h; simp [Memory.read, h, ih]

theorem Memory.read_erase_other (d : Byte) {a b : Nat} (h : b ≠ a) (m : List Host.Cell) :
    Memory.read d b (Memory.erase a m) = Memory.read d b m := by
  induction m with
  | nil => rfl
  | cons c rest ih =>
    obtain ⟨k, w⟩ := c
    simp only [Memory.erase]
    split
    · rename_i hk; subst hk; simp [Memory.read, h, ih]
    · simp [Memory.read, ih]

theorem Memory.read_insert_same (d v : Byte) (a : Nat) (m : List Host.Cell) :
    Memory.read d a (Memory.insert a v (Memory.erase a m)) = v := by
  induction m with
  | nil => simp [Memory.erase, Memory.insert, Memory.read]
  | cons c rest ih =>
    obtain ⟨b, w⟩ := c
    simp only [Memory.erase]
    split
    · exact ih
    · rename_i h
      simp only [Memory.insert]
      split <;> simp [Memory.read, h, ih]

theorem Memory.read_insert_other (d v : Byte) {a b : Nat} (h : b ≠ a) (m : List Host.Cell) :
    Memory.read d b (Memory.insert a v m) = Memory.read d b m := by
  induction m with
  | nil => simp [Memory.insert, Memory.read, h]
  | cons c rest ih =>
    obtain ⟨k, w⟩ := c
    simp only [Memory.insert]
    split <;> simp [Memory.read, h, ih]

theorem Memory.read_write_same (d v : Byte) (a : Nat) (m : List Host.Cell) :
    Memory.read d a (Memory.write d a v m) = v := by
  unfold Memory.write
  split
  · rename_i h; rw [Memory.read_erase_same, h]
  · exact Memory.read_insert_same d v a m

theorem Memory.read_write_other (d d' v : Byte) {a b : Nat} (h : b ≠ a) (m : List Host.Cell) :
    Memory.read d' b (Memory.write d a v m) = Memory.read d' b m := by
  unfold Memory.write
  split
  · exact Memory.read_erase_other d' h m
  · rw [Memory.read_insert_other d' v h, Memory.read_erase_other d' h]

/-- A write changes only the memory field. -/
theorem State.writeByte_eq_withMem (s : State) (a : Nat) (v : Byte) :
    s.writeByte a v = { s with mem := (s.writeByte a v).mem } := by
  unfold State.writeByte; split <;> rfl

theorem State.readByte_writeByte_same (s : State) {a : Nat} (v : Byte) (h : a < 4096) :
    (s.writeByte a v).readByte a = v := by
  simp [State.writeByte, State.readByte, Config.memSize, h, Memory.read_write_same]

theorem State.readByte_writeByte_other (s : State) {a b : Nat} (v : Byte) (h : b ≠ a) :
    (s.writeByte a v).readByte b = s.readByte b := by
  unfold State.writeByte State.readByte
  split
  · exact Memory.read_write_other _ _ v h s.mem
  · rfl

/-- A store of several bytes changes only the memory field. -/
theorem State.writeBytes_eq_withMem (bs : List Byte) :
    ∀ (s : State) (a : Nat), s.writeBytes a bs = { s with mem := (s.writeBytes a bs).mem } := by
  induction bs with
  | nil => intro s a; rfl
  | cons b bs ih =>
    intro s a
    have h := ih (s.writeByte a b) (a + 1)
    simp only [State.writeBytes]
    rw [h, State.writeByte_eq_withMem s a b]

/-- Bytes outside the stored range read as before. -/
theorem State.readByte_writeBytes_outside (bs : List Byte) :
    ∀ (s : State) (a k : Nat), (k < a ∨ a + bs.length ≤ k) → (s.writeBytes a bs).readByte k = s.readByte k := by
  induction bs with
  | nil => intro s a k _; rfl
  | cons b bs ih =>
    intro s a k h
    simp only [List.length_cons] at h
    simp only [State.writeBytes]
    rw [ih _ _ _ (by omega), State.readByte_writeByte_other _ _ (by omega)]

/-- Byte `i` of a store is read back at `a + i`. -/
theorem State.readByte_writeBytes_inside (bs : List Byte) :
    ∀ (s : State) (a i : Nat) (h : i < bs.length), a + bs.length ≤ 4096 →
      (s.writeBytes a bs).readByte (a + i) = bs[i] := by
  induction bs with
  | nil => intro s a i h; simp at h
  | cons b bs ih =>
    intro s a i h hb
    simp only [List.length_cons] at h hb
    simp only [State.writeBytes]
    cases i with
    | zero =>
      rw [State.readByte_writeBytes_outside _ _ _ _ (by omega)]
      simpa using State.readByte_writeByte_same s b (a := a) (by omega)
    | succ i =>
      have := ih (s.writeByte a b) (a + 1) i (by omega) (by omega)
      rw [show a + (i + 1) = a + 1 + i by omega, this]
      rfl

theorem State.readBytes_length (s : State) (n : Nat) : ∀ a, (s.readBytes a n).length = n := by
  induction n with
  | zero => intro a; rfl
  | succ n ih => intro a; simp [State.readBytes, ih]

theorem State.readBytes_getElem (s : State) (n : Nat) :
    ∀ (a i : Nat) (h : i < (s.readBytes a n).length), (s.readBytes a n)[i] = s.readByte (a + i) := by
  induction n with
  | zero => intro a i h; simp [State.readBytes] at h
  | succ n ih =>
    intro a i h
    cases i with
    | zero => rfl
    | succ i =>
      simp only [State.readBytes, List.getElem_cons_succ]
      rw [ih (a + 1) i (by simpa [State.readBytes] using h)]
      congr 1; omega

/-! ### The canonical form -/

theorem Memory.wfFrom_weaken (font : Font) {lo lo' : Nat} (h : lo' ≤ lo) (m : List Host.Cell)
    (hm : Memory.wfFrom font lo m = true) : Memory.wfFrom font lo' m = true := by
  cases m with
  | nil => rfl
  | cons c rest =>
    obtain ⟨a, v⟩ := c
    simp only [Memory.wfFrom, Bool.and_eq_true, decide_eq_true_eq] at hm ⊢
    exact ⟨⟨⟨by omega, hm.1.1.2⟩, hm.1.2⟩, hm.2⟩

theorem Memory.wfFrom_erase (font : Font) (a : Nat) (m : List Host.Cell) :
    ∀ lo, Memory.wfFrom font lo m = true → Memory.wfFrom font lo (Memory.erase a m) = true := by
  induction m with
  | nil => intro lo h; exact h
  | cons c rest ih =>
    obtain ⟨b, w⟩ := c
    intro lo h
    simp only [Memory.wfFrom, Bool.and_eq_true, decide_eq_true_eq] at h
    simp only [Memory.erase]
    split
    · exact ih lo (Memory.wfFrom_weaken font (by omega) rest h.2)
    · simp only [Memory.wfFrom, Bool.and_eq_true, decide_eq_true_eq]
      exact ⟨h.1, ih _ h.2⟩

theorem Memory.wfFrom_insert (font : Font) {a : Nat} {v : Byte} (ha : a < Config.memSize)
    (hv : v ≠ unlistedByte font a) (m : List Host.Cell) :
    ∀ lo, lo ≤ a → Memory.wfFrom font lo m = true →
      Memory.wfFrom font lo (Memory.insert a v (Memory.erase a m)) = true := by
  induction m with
  | nil =>
    intro lo hlo _
    simp [Memory.erase, Memory.insert, Memory.wfFrom, hlo, ha, hv]
  | cons c rest ih =>
    obtain ⟨b, w⟩ := c
    intro lo hlo h
    have hr := h
    simp only [Memory.wfFrom, Bool.and_eq_true, decide_eq_true_eq] at h
    simp only [Memory.erase]
    split
    · exact ih lo hlo (Memory.wfFrom_weaken font (by omega) rest h.2)
    · rename_i hne
      simp only [Memory.insert]
      split
      · rename_i hlt
        simp only [Memory.wfFrom, Bool.and_eq_true, decide_eq_true_eq, bne_iff_ne]
        refine ⟨⟨⟨hlo, ha⟩, hv⟩, ⟨⟨⟨by omega, h.1.1.2⟩, by simpa using h.1.2⟩, ?_⟩⟩
        exact Memory.wfFrom_erase font a rest _ h.2
      · simp only [Memory.wfFrom, Bool.and_eq_true, decide_eq_true_eq]
        exact ⟨h.1, ih _ (by omega) h.2⟩

/-- A write keeps the canonical form. -/
theorem State.writeByte_keeps_memWf (s : State) (a : Nat) (v : Byte) (h : s.memWf) : (s.writeByte a v).memWf := by
  unfold State.writeByte
  split
  · rename_i ha
    show Memory.wfFrom s.font 0 (Memory.write _ a v s.mem) = true
    unfold Memory.write
    split
    · exact Memory.wfFrom_erase s.font a s.mem 0 h
    · rename_i hv
      exact Memory.wfFrom_insert s.font ha hv s.mem 0 (Nat.zero_le _) h
  · exact h

/-- A store of several bytes keeps the canonical form. -/
theorem State.writeBytes_keeps_memWf (bs : List Byte) :
    ∀ (s : State) (a : Nat), s.memWf → (s.writeBytes a bs).memWf := by
  induction bs with
  | nil => intro s a h; exact h
  | cons b bs ih => intro s a h; exact ih _ _ (State.writeByte_keeps_memWf s a b h)

/-- A canonical memory lists no address at or above 4096. -/
theorem Memory.read_above (font : Font) (d : Byte) {a : Nat} (ha : 4096 ≤ a) (m : List Host.Cell) :
    ∀ lo, Memory.wfFrom font lo m = true → Memory.read d a m = d := by
  induction m with
  | nil => intro lo _; rfl
  | cons c rest ih =>
    obtain ⟨b, w⟩ := c
    intro lo h
    simp only [Memory.wfFrom, Bool.and_eq_true, decide_eq_true_eq] at h
    have hb : b < 4096 := h.1.1.2
    have : a ≠ b := by omega
    simp [Memory.read, this, ih _ h.2]

theorem Memory.wfFrom_tighten (font : Font) {lo b : Nat} {w : Byte} {rest : List Host.Cell}
    (h : Memory.wfFrom font lo ((b, w) :: rest) = true) : Memory.wfFrom font b ((b, w) :: rest) = true := by
  simp only [Memory.wfFrom, Bool.and_eq_true, decide_eq_true_eq] at h ⊢
  exact ⟨⟨⟨Nat.le_refl b, h.1.1.2⟩, h.1.2⟩, h.2⟩

theorem Memory.read_below (font : Font) (d : Byte) (m : List Host.Cell) :
    ∀ lo a, a < lo → Memory.wfFrom font lo m = true → Memory.read d a m = d := by
  induction m with
  | nil => intro lo a _ _; rfl
  | cons c rest ih =>
    obtain ⟨b, w⟩ := c
    intro lo a ha h
    simp only [Memory.wfFrom, Bool.and_eq_true, decide_eq_true_eq] at h
    have : a ≠ b := by omega
    simp [Memory.read, this, ih _ a (by omega) h.2]

/-- The form is canonical: two canonical memories that read the same everywhere are the same list. -/
theorem Memory.wfFrom_ext (font : Font) (m : List Host.Cell) :
    ∀ (m' : List Host.Cell) (lo : Nat), Memory.wfFrom font lo m = true → Memory.wfFrom font lo m' = true →
      (∀ a, Memory.read (unlistedByte font a) a m = Memory.read (unlistedByte font a) a m') → m = m' := by
  induction m with
  | nil =>
    intro m' lo _ h' hr
    cases m' with
    | nil => rfl
    | cons c rest =>
      obtain ⟨b, w⟩ := c
      simp only [Memory.wfFrom, Bool.and_eq_true, decide_eq_true_eq, bne_iff_ne] at h'
      have := hr b
      simp [Memory.read] at this
      exact absurd this.symm h'.1.2
  | cons c rest ih =>
    obtain ⟨b, w⟩ := c
    intro m' lo h h' hr
    have h0 := h
    simp only [Memory.wfFrom, Bool.and_eq_true, decide_eq_true_eq, bne_iff_ne] at h
    cases m' with
    | nil =>
      have := hr b
      simp [Memory.read] at this
      exact absurd this h.1.2
    | cons c' rest' =>
      obtain ⟨b', w'⟩ := c'
      have h0' := h'
      simp only [Memory.wfFrom, Bool.and_eq_true, decide_eq_true_eq, bne_iff_ne] at h'
      have hbb : b = b' := by
        rcases Nat.lt_trichotomy b b' with hlt | heq | hgt
        · exfalso
          have := hr b
          rw [Memory.read_below font _ ((b', w') :: rest') b' b hlt (Memory.wfFrom_tighten font h0')] at this
          simp [Memory.read] at this
          exact h.1.2 this
        · exact heq
        · exfalso
          have := hr b'
          rw [Memory.read_below font _ ((b, w) :: rest) b b' hgt (Memory.wfFrom_tighten font h0)] at this
          simp [Memory.read] at this
          exact h'.1.2 this.symm
      subst hbb
      have hw : w = w' := by simpa [Memory.read] using hr b
      subst hw
      have : rest = rest' := by
        refine ih rest' (b + 1) h.2 h'.2 fun a => ?_
        by_cases hab : a = b
        · subst hab
          rw [Memory.read_below font _ rest (a + 1) a (by omega) h.2,
            Memory.read_below font _ rest' (a + 1) a (by omega) h'.2]
        · simpa [Memory.read, hab] using hr a
      rw [this]

end Sys2Proof.Machine
end

