-- ==== Sys2Proof/Laws/Ops.lean ====
section
/-! SUPPORT. Laws of the shared operations: the register file, the call-stack slots, committing a next pc, and the
end of a step. -/

namespace Sys2Proof.Machine

theorem State.V_setV (s : State) (x k : RegIx) (v : Byte) : (s.setV x v).V k = if k = x then v else s.V k := by
  unfold State.V
  simp only [State.setV_regs, Vector.getElem_set]
  by_cases h : k = x
  · subst h; simp
  · have : ¬ x.toNat = k.toNat := fun e => h (BitVec.eq_of_toNat_eq e.symm)
    simp [h, this]

@[simp] theorem State.V_setV_same (s : State) (x : RegIx) (v : Byte) : (s.setV x v).V x = v := by
  simp [State.V_setV]

theorem State.V_setV_other (s : State) {x k : RegIx} (v : Byte) (h : k ≠ x) : (s.setV x v).V k = s.V k := by
  simp [State.V_setV, h]

/-- Loading bytes into registers from number `k` upward changes only the register file. -/
theorem State.setRegsFrom_eq_withRegs (bs : List Byte) :
    ∀ (s : State) (k : Nat), s.setRegsFrom k bs = { s with regs := (s.setRegsFrom k bs).regs } := by
  induction bs with
  | nil => intro s k; rfl
  | cons b bs ih => intro s k; simp only [State.setRegsFrom]; rw [ih]; rfl

/-- Register `j` after the load: byte `j - k` of the list, or its old value outside the range. -/
theorem State.setRegsFrom_getElem (bs : List Byte) :
    ∀ (s : State) (k : Nat), k + bs.length ≤ 16 → ∀ (j : Nat) (hj : j < 16),
      (s.setRegsFrom k bs).regs[j] =
        if h : k ≤ j ∧ j < k + bs.length then bs[j - k]'(by omega) else s.regs[j] := by
  induction bs with
  | nil =>
    intro s k _ j hj
    simp [State.setRegsFrom]
  | cons b bs ih =>
    intro s k hk j hj
    simp only [List.length_cons] at hk
    simp only [State.setRegsFrom]
    rw [ih _ _ (by omega) j hj]
    have hkk : (BitVec.ofNat 4 k).toNat = k := by simp; omega
    simp only [State.setV_regs, Vector.getElem_set, hkk, List.length_cons]
    by_cases hlt : k + 1 ≤ j ∧ j < k + 1 + bs.length
    · have h2 : k ≤ j ∧ j < k + (bs.length + 1) := by omega
      have hidx : j - k = (j - (k + 1)) + 1 := by omega
      simp only [hlt, and_self, dite_true, h2, hidx, List.getElem_cons_succ]
    · by_cases he : k = j
      · subst he
        simp
      · have h2 : ¬ (k ≤ j ∧ j < k + (bs.length + 1)) := by omega
        rw [dif_neg hlt, dif_neg h2, if_neg he]

theorem State.regsUpTo_length (s : State) (x : RegIx) : (s.regsUpTo x).length = x.toNat + 1 := by
  have := x.isLt
  simp [State.regsUpTo]; omega

theorem State.regsUpTo_getElem (s : State) (x : RegIx) (k : RegIx) (h : k.toNat ≤ x.toNat) :
    (s.regsUpTo x)[k.toNat]'(by rw [State.regsUpTo_length]; omega) = s.V k := by
  simp [State.regsUpTo, State.V]

/-- A slot number below 16 is itself (R109). -/
theorem stackSlot_of_lt {p : BitVec 5} (h : p.toNat < 16) : stackSlot p = p.toNat := Nat.mod_eq_of_lt h

theorem State.commit_ok {pre post : State} {npc : Nat} (h : npc ≤ 0xFFF) :
    pre.commit post npc = { post with pc := BitVec.ofNat 12 npc } := by
  unfold State.commit Config.lastAddr
  rw [if_neg (by omega)]

theorem State.commit_fault {pre post : State} {npc : Nat} (h : 0xFFF < npc) :
    pre.commit post npc = faulted pre 2 := by
  unfold State.commit Config.lastAddr
  rw [if_pos (by omega)]; rfl

/-- All that committing a next pc can do: the writes with the new pc, or PcRange with none of them. -/
theorem State.commit_cases (pre post : State) (npc : Nat) :
    (npc ≤ 0xFFF ∧ pre.commit post npc = { post with pc := BitVec.ofNat 12 npc }) ∨
    (0xFFF < npc ∧ pre.commit post npc = faulted pre 2) := by
  rcases Nat.lt_or_ge 0xFFF npc with h | h
  · exact .inr ⟨h, State.commit_fault h⟩
  · exact .inl ⟨h, State.commit_ok h⟩

theorem ofNat_pc_add (pc : Addr) (k : Nat) : BitVec.ofNat 12 (pc.toNat + k) = pc + BitVec.ofNat 12 k := by
  apply BitVec.eq_of_toNat_eq; simp

theorem State.advance_ok {pre post : State} {k : Nat} (h : pre.pc.toNat + k ≤ 0xFFF) :
    pre.advance post k = { post with pc := pre.pc + BitVec.ofNat 12 k } := by
  unfold State.advance; rw [State.commit_ok h, ofNat_pc_add]

theorem State.advance_fault {pre post : State} {k : Nat} (h : 0xFFF < pre.pc.toNat + k) :
    pre.advance post k = faulted pre 2 := State.commit_fault h

/-- The range check as one inequality. -/
theorem dataInRange_iff (a n : Nat) : dataInRange a n = true ↔ n = 0 ∨ a + n ≤ 0x1000 := by
  unfold dataInRange Config.lastAddr
  simp only [Bool.or_eq_true, beq_iff_eq, decide_eq_true_eq]
  omega

theorem State.storeAtI_some {s : State} {bs : List Byte} (h : dataInRange s.idx.toNat bs.length = true) :
    s.storeAtI bs = some (s.writeBytes s.idx.toNat bs) := by simp [State.storeAtI, h]

theorem State.storeAtI_none {s : State} {bs : List Byte} (h : ¬ dataInRange s.idx.toNat bs.length = true) :
    s.storeAtI bs = none := by simp [State.storeAtI, h]

theorem State.loadAtI_some {s : State} {n : Nat} (h : dataInRange s.idx.toNat n = true) :
    s.loadAtI n = some (s.readBytes s.idx.toNat n) := by simp [State.loadAtI, h]

theorem State.loadAtI_none {s : State} {n : Nat} (h : ¬ dataInRange s.idx.toNat n = true) :
    s.loadAtI n = none := by simp [State.loadAtI, h]

theorem countdown_toNat (t : Byte) : (countdown t).toNat = t.toNat - 1 := by
  unfold countdown
  split
  · rename_i h; subst h; rfl
  · rename_i h
    have : t.toNat ≠ 0 := fun e => h (BitVec.eq_of_toNat_eq e)
    rw [BitVec.toNat_sub_of_le (by rw [BitVec.le_def]; simp; omega)]; rfl

/-- The least differing key, by number (R183). -/
theorem firstSetBit_eq_some {d : Keys} {k : Nat} (hk : k < 16) (h : d.getLsbD k = true)
    (hmin : ∀ j, j < k → d.getLsbD j = false) : firstSetBit d = some k := by
  unfold firstSetBit
  rw [List.find?_range_eq_some]
  exact ⟨h, by simpa using hk, fun j hj => by simp [hmin j hj]⟩

theorem firstSetBit_eq_none_iff (d : Keys) : firstSetBit d = none ↔ d = 0#16 := by
  unfold firstSetBit
  simp only [List.find?_eq_none, List.mem_range, Bool.not_eq_true]
  constructor
  · intro h; apply BitVec.eq_of_getLsbD_eq; intro i hi; simp [h i hi]
  · rintro rfl i _; simp

end Sys2Proof.Machine
end

