-- ==== Sys2Proof/Laws/Exec.lean ====
section
/-! SUPPORT. What an instruction can do, said once: `exec` raises the first fault of R205 and commits nothing, or
commits its writes (`effect`) with the next pc of R85. -/

namespace Sys2Proof.Machine

/-- The writes of each instruction, the pc apart (files 41 to 46 of spec/). -/
def effect (i : Instr) (s : State) : State :=
  match i with
  | .cls => { s with fb := Vector.replicate 32 0, redraw := true }
  | .ret => { s with sp := s.sp - 1 }
  | .sys _ => { s with unrec := true }
  | .call _ => { s.stackWrite s.sp (s.pc + 2) with sp := s.sp + 1 }
  | .jp _ | .jpV0Nnn _ | .seVxKk _ _ | .sneVxKk _ _ | .seVxVy _ _ | .sneVxVy _ _ | .skpVx _ | .sknpVx _ => s
  | .ldVxKk x kk => s.setV x kk
  | .addVxKk x kk => s.setV x (s.V x + kk)
  | .ldVxVy x y => s.setV x (s.V y)
  | .orVxVy x y => s.setV x (s.V x ||| s.V y)
  | .andVxVy x y => s.setV x (s.V x &&& s.V y)
  | .xorVxVy x y => s.setV x (s.V x ^^^ s.V y)
  | .addVxVy x y => (s.setV x (s.V x + s.V y)).setV 15 (carryFlag (s.V x) (s.V y))
  | .subVxVy x y => (s.setV x (s.V x - s.V y)).setV 15 (notBorrowFlag (s.V x) (s.V y))
  | .shrVx x => (s.setV x (s.V x >>> 1)).setV 15 (shiftedOutRight (s.V x))
  | .subnVxVy x y => (s.setV x (s.V y - s.V x)).setV 15 (notBorrowFlag (s.V y) (s.V x))
  | .shlVx x => (s.setV x (s.V x <<< 1)).setV 15 (shiftedOutLeft (s.V x))
  | .ldINnn nnn => { s with idx := nnn }
  | .rndVxKk x kk => s.setV x (s.rnd &&& kk)
  | .drwVxVyN x y n =>
    let drawn := drawRows (s.V x).toNat (s.V y).toNat 0 (s.readBytes s.idx.toNat n.toNat) (s.fb, false)
    { s.setV 15 (collisionFlag drawn.2) with fb := drawn.1, redraw := true }
  | .ldVxDt x => s.setV x s.dt
  | .ldVxK x =>
    if s.kwActive then
      match firstSetBit (s.keys ^^^ s.kwSnap) with
      | none => s
      | some k => { s.setV x (BitVec.ofNat 8 k) with kwActive := false }
    else { s with kwSnap := s.keys, kwActive := true }
  | .ldDtVx x => { s with dt := s.V x }
  | .ldStVx x => { s with st := s.V x }
  | .addIVx x => { s with idx := BitVec.ofNat 12 (s.idx.toNat + (s.V x).toNat) }
  | .ldFVx x => { s with idx := glyphAddr (s.V x) }
  | .ldBVx x => s.writeBytes s.idx.toNat (bcdDigits (s.V x))
  | .ldMemVx x => s.writeBytes s.idx.toNat (s.regsUpTo x)
  | .ldVxMem x => s.setRegsFrom 0 (s.readBytes s.idx.toNat (x.toNat + 1))

/-- The state an instruction answers. -/
def outcomeState (i : Instr) (s : State) : State :=
  match instrFault i s with
  | some f => faulted s (causeCode f)
  | none => { effect i s with pc := BitVec.ofNat 12 (nextPc i s) }

/-- Committing writes with a next pc, in the form of `outcomeState`. -/
theorem commit_eq_outcome (s t : State) (npc : Nat) :
    s.commit t npc = if 0xFFF < npc then faulted s 2 else { t with pc := BitVec.ofNat 12 npc } := by
  rcases State.commit_cases s t npc with ⟨h, e⟩ | ⟨h, e⟩
  · rw [e, if_neg (by omega)]
  · rw [e, if_pos h]

theorem outcome_of_noOwnFault (i : Instr) (s : State) (h : ownFault i s = none)
    (hc : pcOutOfRange i s = decide (0xFFF < nextPc i s)) :
    outcomeState i s = s.commit (effect i s) (nextPc i s) := by
  rw [commit_eq_outcome]
  unfold outcomeState instrFault
  rw [h, hc]
  by_cases hp : 0xFFF < nextPc i s <;> simp [hp, causeCode]

theorem outcome_of_ownFault {i : Instr} {s : State} {f : CoreFault} (h : ownFault i s = some f) :
    outcomeState i s = s.raise f := by
  unfold outcomeState instrFault; rw [h]; rfl

theorem skipIf_eq (s : State) (c : Bool) :
    s.skipIf c = s.commit s (if c = true then s.pc.toNat + 4 else s.pc.toNat + 2) := by
  unfold State.skipIf State.advance
  cases c <;> rfl

theorem skipIf_not_eq (s : State) (c : Bool) :
    s.skipIf (!c) = s.commit s (if c = true then s.pc.toNat + 2 else s.pc.toNat + 4) := by
  rw [skipIf_eq]; cases c <;> rfl

/-- An instruction without a fault of its own that advances by 2. -/
theorem exec_next2 {i : Instr} {s : State} (he : exec i s = .next (s.advance (effect i s) 2))
    (hf : ownFault i s = none) (hn : nextPc i s = s.pc.toNat + 2)
    (hc : pcOutOfRange i s = decide (0xFFF < nextPc i s)) : exec i s = .next (outcomeState i s) := by
  rw [he, outcome_of_noOwnFault i s hf hc, hn]; rfl

/-- All that an instruction can do, for every instruction and every state. -/
theorem exec_eq (i : Instr) (s : State) : exec i s = .next (outcomeState i s) := by
  cases i with
  | cls => exact exec_next2 rfl rfl rfl (Bool.or_false _)
  | sys => exact exec_next2 rfl rfl rfl (Bool.or_false _)
  | ldVxKk => exact exec_next2 rfl rfl rfl (Bool.or_false _)
  | addVxKk => exact exec_next2 rfl rfl rfl (Bool.or_false _)
  | ldVxVy => exact exec_next2 rfl rfl rfl (Bool.or_false _)
  | orVxVy => exact exec_next2 rfl rfl rfl (Bool.or_false _)
  | andVxVy => exact exec_next2 rfl rfl rfl (Bool.or_false _)
  | xorVxVy => exact exec_next2 rfl rfl rfl (Bool.or_false _)
  | addVxVy => exact exec_next2 rfl rfl rfl (Bool.or_false _)
  | subVxVy => exact exec_next2 rfl rfl rfl (Bool.or_false _)
  | shrVx => exact exec_next2 rfl rfl rfl (Bool.or_false _)
  | subnVxVy => exact exec_next2 rfl rfl rfl (Bool.or_false _)
  | shlVx => exact exec_next2 rfl rfl rfl (Bool.or_false _)
  | ldINnn => exact exec_next2 rfl rfl rfl (Bool.or_false _)
  | rndVxKk => exact exec_next2 rfl rfl rfl (Bool.or_false _)
  | ldVxDt => exact exec_next2 rfl rfl rfl (Bool.or_false _)
  | ldDtVx => exact exec_next2 rfl rfl rfl (Bool.or_false _)
  | ldStVx => exact exec_next2 rfl rfl rfl (Bool.or_false _)
  | ldFVx => exact exec_next2 rfl rfl rfl (Bool.or_false _)
  | jp nnn => rw [outcome_of_noOwnFault (.jp nnn) s rfl (Bool.or_false _)]; rfl
  | jpV0Nnn nnn => rw [outcome_of_noOwnFault (.jpV0Nnn nnn) s rfl (Bool.or_false _)]; rfl
  | seVxKk x kk =>
    rw [outcome_of_noOwnFault (.seVxKk x kk) s rfl (Bool.or_false _)]
    simp only [exec, execSeVxKk, skipIf_eq, effect, nextPc, beq_iff_eq]
  | sneVxKk x kk =>
    rw [outcome_of_noOwnFault (.sneVxKk x kk) s rfl (Bool.or_false _)]
    simp only [exec, execSneVxKk, bne, skipIf_not_eq, effect, nextPc, beq_iff_eq]
  | seVxVy x y =>
    rw [outcome_of_noOwnFault (.seVxVy x y) s rfl (Bool.or_false _)]
    simp only [exec, execSeVxVy, skipIf_eq, effect, nextPc, beq_iff_eq]
  | sneVxVy x y =>
    rw [outcome_of_noOwnFault (.sneVxVy x y) s rfl (Bool.or_false _)]
    simp only [exec, execSneVxVy, bne, skipIf_not_eq, effect, nextPc, beq_iff_eq]
  | ret =>
    simp only [exec, execRet]
    by_cases h : s.sp = 0
    · rw [if_pos h, outcome_of_ownFault (f := .stackUnderflow) (by simp [ownFault, h])]
    · rw [if_neg h, outcome_of_noOwnFault (.ret) s (by simp only [ownFault, if_neg h]) (Bool.or_false _)]; rfl
  | call nnn =>
    simp only [exec, execCall, Config.stackCapacity, Config.lastAddr, ge_iff_le, gt_iff_lt]
    by_cases h : 16 ≤ s.sp.toNat
    · rw [if_pos h, outcome_of_ownFault (f := .stackOverflow) (by simp [ownFault, h])]
    · have hn : ¬ 0xFFF < nnn.toNat := by have := nnn.isLt; omega
      rw [if_neg h]
      unfold outcomeState instrFault
      by_cases hp : 0xFFF < s.pc.toNat + 2
      · simp [ownFault, h, pcOutOfRange, hp, State.raise_eq_faulted]
      · rw [if_neg hp, State.commit_ok (by omega)]
        simp [ownFault, h, pcOutOfRange, hp, nextPc, hn, effect, ofNat_pc_add]
  | skpVx x =>
    simp only [exec, execSkpVx]
    by_cases h : 15 < (s.V x).toNat
    · rw [if_pos h, outcome_of_ownFault (f := .keyIndex) (by simp [ownFault, h])]
    · rw [if_neg h, outcome_of_noOwnFault (.skpVx x) s (by simp [ownFault, h]) (Bool.or_false _), skipIf_eq]
      simp only [effect, nextPc]
  | sknpVx x =>
    simp only [exec, execSknpVx]
    by_cases h : 15 < (s.V x).toNat
    · rw [if_pos h, outcome_of_ownFault (f := .keyIndex) (by simp [ownFault, h])]
    · rw [if_neg h, outcome_of_noOwnFault (.sknpVx x) s (by simp [ownFault, h]) (Bool.or_false _), skipIf_not_eq]
      simp only [effect, nextPc]
  | ldVxK x =>
    rw [outcome_of_noOwnFault (.ldVxK x) s rfl (Bool.or_false _)]
    simp only [exec, execLdVxK, effect, nextPc]
    by_cases h : s.kwActive = true
    · by_cases hk : s.keys = s.kwSnap
      · have : firstSetBit (s.keys ^^^ s.kwSnap) = none := by rw [firstSetBit_eq_none_iff, hk, BitVec.xor_self]
        rw [this]; simp [h, hk]
      · have : firstSetBit (s.keys ^^^ s.kwSnap) ≠ none := by
          rw [Ne, firstSetBit_eq_none_iff, BitVec.xor_eq_zero_iff]; exact hk
        obtain ⟨k, hk'⟩ := Option.ne_none_iff_exists'.mp this
        simp [h, hk', hk, State.advance]
    · simp [h]
  | addIVx x =>
    simp only [exec, execAddIVx, indexSum, Config.lastAddr, gt_iff_lt]
    by_cases h : 0xFFF < s.idx.toNat + (s.V x).toNat
    · rw [if_pos h, outcome_of_ownFault (f := .indexRange) (by simp [ownFault, h])]
    · rw [if_neg h, outcome_of_noOwnFault (.addIVx x) s (by simp [ownFault, h]) (Bool.or_false _)]; rfl
  | ldBVx x =>
    simp only [exec, execLdBVx]
    by_cases h : 0xFFF < s.idx.toNat + 2
    · rw [outcome_of_ownFault (f := .dataRange) (by simp [ownFault, h]), State.storeAtI_none]
      rw [dataInRange_iff]; simp [bcdDigits]; omega
    · rw [outcome_of_noOwnFault (.ldBVx x) s (by simp [ownFault, h]) (Bool.or_false _), State.storeAtI_some]
      · rfl
      · rw [dataInRange_iff]; simp [bcdDigits]; omega
  | ldMemVx x =>
    simp only [exec, execLdMemVx]
    by_cases h : 0xFFF < s.idx.toNat + x.toNat
    · rw [outcome_of_ownFault (f := .dataRange) (by simp [ownFault, h]), State.storeAtI_none]
      rw [dataInRange_iff, State.regsUpTo_length]; omega
    · rw [outcome_of_noOwnFault (.ldMemVx x) s (by simp [ownFault, h]) (Bool.or_false _), State.storeAtI_some]
      · rfl
      · rw [dataInRange_iff, State.regsUpTo_length]; omega
  | ldVxMem x =>
    simp only [exec, execLdVxMem]
    by_cases h : 0xFFF < s.idx.toNat + x.toNat
    · rw [outcome_of_ownFault (f := .dataRange) (by simp [ownFault, h]), State.loadAtI_none]
      rw [dataInRange_iff]; omega
    · rw [outcome_of_noOwnFault (.ldVxMem x) s (by simp [ownFault, h]) (Bool.or_false _), State.loadAtI_some]
      · rfl
      · rw [dataInRange_iff]; omega
  | drwVxVyN x y n =>
    simp only [exec, execDrwVxVyN]
    have hi := s.idx.isLt
    by_cases h : 1 ≤ n.toNat ∧ 0xFFF < s.idx.toNat + n.toNat - 1
    · rw [outcome_of_ownFault (f := .dataRange) (by simp only [ownFault, if_pos h]), State.loadAtI_none]
      rw [dataInRange_iff]; omega
    · rw [outcome_of_noOwnFault (.drwVxVyN x y n) s (by simp only [ownFault, if_neg h]) (Bool.or_false _), State.loadAtI_some]
      · rfl
      · rw [dataInRange_iff]; omega

/-- An instruction that meets no fault commits its writes and its next pc. -/
theorem exec_commits {i : Instr} {s : State} (h : ownFault i s = none) (hp : pcOutOfRange i s = false) :
    exec i s = .next { effect i s with pc := BitVec.ofNat 12 (nextPc i s) } := by
  rw [exec_eq]; unfold outcomeState instrFault; rw [h, hp]; rfl

/-- From the writes of an instruction that ends with `next(2)` to its statement. -/
theorem completesNext2_of_effect {i : Instr} {s t : State} (hf : ownFault i s = none)
    (hn : nextPc i s = s.pc.toNat + 2) (hc : pcOutOfRange i s = decide (0xFFF < nextPc i s))
    (he : effect i s = t) : CompletesNext2 i s t := by
  have h := exec_eq i s
  rw [outcome_of_noOwnFault i s hf hc, commit_eq_outcome, hn, he] at h
  constructor
  · intro hp; rw [h, if_neg (by omega), ofNat_pc_add]; rfl
  · intro hp; rw [h, if_pos hp]

/-- From the next pc of a skip to its statement. -/
theorem completesSkip_of_nextPc {i : Instr} {s : State} {c : Prop} (hf : ownFault i s = none)
    (hc : pcOutOfRange i s = decide (0xFFF < nextPc i s)) (he : effect i s = s)
    (h1 : c → nextPc i s = s.pc.toNat + 4) (h2 : ¬c → nextPc i s = s.pc.toNat + 2) : CompletesSkip i s c := by
  have h := exec_eq i s
  rw [outcome_of_noOwnFault i s hf hc, commit_eq_outcome, he] at h
  refine ⟨fun hc hp => ?_, fun hc hp => ?_, fun hc hp => ?_, fun hc hp => ?_⟩
  · rw [h, h1 hc, if_neg (by omega), ofNat_pc_add]; rfl
  · rw [h, h1 hc, if_pos hp]
  · rw [h, h2 hc, if_neg (by omega), ofNat_pc_add]; rfl
  · rw [h, h2 hc, if_pos hp]

end Sys2Proof.Machine
end

