-- ==== Sys2Proof/Laws/Step.lean ====
section
/-! SUPPORT. What a step can do, said once: nothing when halted; the fault of R205 with none of its effect; or the
writes of the instruction on the state with its per-cycle flags cleared, the next pc, and the timers. A step of a core
that is not halted takes one sample of the inputs, whether it faults or commits. -/

namespace Sys2Proof.Machine

theorem instrFault_clearCycleFlags (i : Instr) (s : State) : instrFault i s.clearCycleFlags = instrFault i s := by
  cases i <;> rfl

theorem nextPc_clearCycleFlags (i : Instr) (s : State) : nextPc i s.clearCycleFlags = nextPc i s := by
  cases i <;> rfl

/-- The state a committed step has before its timers run. -/
def committed (s : State) : State :=
  match s.nextInstr with
  | some i => { effect i s.clearCycleFlags with pc := BitVec.ofNat 12 (nextPc i s) }
  | none => { s with redraw := false, tone := false, unrec := true, pc := BitVec.ofNat 12 (s.pc.toNat + 2) }

theorem step_halted {s : State} (h : s.halted = true) : step s = .next s := by
  unfold step; rw [if_pos h]

theorem fetchWord_clearCycleFlags (s : State) : s.clearCycleFlags.fetchWord = s.fetchWord := rfl

theorem finishStep_of_running {t : State} (h : t.halted = false) : t.finishStep = t.tickTimers.consumeInput := by
  unfold State.finishStep; rw [h]; rfl

theorem finishStep_of_halted {t : State} (h : t.halted = true) : t.finishStep = t.consumeInput := by
  unfold State.finishStep; rw [h]; rfl

/-- No instruction touches `halted` but by raising a fault. -/
theorem effect_halted (i : Instr) (s : State) : (effect i s).halted = s.halted := by
  cases i <;> try rfl
  case ldVxK x =>
    simp only [effect]
    split
    · split <;> rfl
    · rfl
  case ldBVx x => simp only [effect]; rw [State.writeBytes_eq_withMem]
  case ldMemVx x => simp only [effect]; rw [State.writeBytes_eq_withMem]
  case ldVxMem x => simp only [effect]; rw [State.setRegsFrom_eq_withRegs]

theorem wordAtPc_none {s : State} (h : s.wordAtPc = none) : s.fetchWord = none := by
  unfold State.wordAtPc at h; unfold State.fetchWord
  split at h
  · rename_i hp; rw [if_pos hp]
  · simp at h

theorem wordAtPc_some {s : State} {w : Word} (h : s.wordAtPc = some w) :
    ∃ hi lo, s.fetchWord = some (hi, lo) ∧ wordOfBytes hi lo = w := by
  unfold State.wordAtPc at h; unfold State.fetchWord
  split at h
  · simp at h
  · rename_i hp
    rw [if_neg hp]
    exact ⟨_, _, rfl, by simpa using h⟩

/-- A faulting step is the fault's state with the step's sample spent. -/
theorem faultedStep_eq (s : State) (code : BitVec 3) : faultedStep s code = (faulted s code).consumeInput := rfl

/-- All that a step of a core that is not halted can do. -/
theorem step_running {s : State} (h : s.halted = false) :
    step s = .next (match stepFault s with
      | some f => faultedStep s (causeCode f)
      | none => (committed s).tickTimers.consumeInput) := by
  unfold step
  rw [if_neg (by simp [h]), fetchWord_clearCycleFlags]
  cases hw : s.wordAtPc with
  | none => rw [wordAtPc_none hw]; simp only [stepFault, hw]; rfl
  | some w =>
    obtain ⟨hi, lo, hf, rfl⟩ := wordAtPc_some hw
    rw [hf]
    simp only [execWord]
    cases hd : decodeWord (wordOfBytes hi lo) with
    | ok i =>
      have hn : s.nextInstr = some i := by simp [State.nextInstr, h, hw, hd, Except.toOption]
      simp only [exec_eq, outcomeState, instrFault_clearCycleFlags, nextPc_clearCycleFlags, stepFault, hw, hd]
      cases hfault : instrFault i s with
      | some f => simp only; rw [finishStep_of_halted rfl]; rfl
      | none =>
        simp only [committed, hn]
        rw [finishStep_of_running (by simpa [effect_halted] using h)]
    | error r =>
      have hn : s.nextInstr = none := by simp [State.nextInstr, h, hw, hd, Except.toOption]
      simp only [execUnrecognized, State.unrecognizedNop, State.advance, stepFault, hw, hd]
      rw [commit_eq_outcome]
      by_cases hp : 0xFFF < s.pc.toNat + 2
      · have : 0xFFF < s.clearCycleFlags.pc.toNat + 2 := hp
        rw [if_pos this, if_pos hp, finishStep_of_halted rfl]; rfl
      · have : ¬ 0xFFF < s.clearCycleFlags.pc.toNat + 2 := hp
        rw [if_neg this, if_neg hp, finishStep_of_running (by exact h)]
        simp only [committed, hn]; rfl

/-- A step answers one of three states. -/
theorem step_cases {s t : State} (h : step s = .next t) :
    (s.halted = true ∧ t = s) ∨
    (s.halted = false ∧ ∃ f, stepFault s = some f ∧ t = faultedStep s (causeCode f)) ∨
    (s.halted = false ∧ stepFault s = none ∧ t = (committed s).tickTimers.consumeInput) := by
  cases hh : s.halted with
  | true =>
    rw [step_halted hh] at h
    injection h with h
    exact .inl ⟨rfl, h.symm⟩
  | false =>
    rw [step_running hh] at h
    injection h with h
    cases hf : stepFault s with
    | some f => rw [hf] at h; exact .inr (.inl ⟨rfl, f, rfl, h.symm⟩)
    | none => rw [hf] at h; exact .inr (.inr ⟨rfl, rfl, h.symm⟩)

theorem committed_halted {s : State} (h : s.halted = false) : (committed s).halted = false := by
  unfold committed
  split
  · simpa [effect_halted] using h
  · exact h

/-- A step that leaves the core running commits. -/
theorem committed_of_running {s t : State} (h : step s = .next t) (ht : t.halted = false) :
    s.halted = false ∧ stepFault s = none ∧ t = (committed s).tickTimers.consumeInput := by
  rcases step_cases h with ⟨hs, rfl⟩ | ⟨_, f, _, rfl⟩ | h3
  · rw [hs] at ht; cases ht
  · cases ht
  · exact h3

theorem stepTo_eq {s t : State} (h : step s = .next t) : stepTo s = t := by unfold stepTo; rw [h]

/-- The instruction a step executes stands at `pc` of a core that is not halted. -/
theorem nextInstr_word {s : State} {i : Instr} (h : s.nextInstr = some i) :
    s.halted = false ∧ ∃ w, s.wordAtPc = some w ∧ decodeWord w = .ok i := by
  unfold State.nextInstr at h
  split at h
  · cases h
  · rename_i hh
    cases hw : s.wordAtPc with
    | none => simp [hw] at h
    | some w =>
      cases hd : decodeWord w with
      | error r => simp [hw, hd, Except.toOption] at h
      | ok j =>
        simp only [hw, hd, Option.bind_some, Except.toOption, Option.some.injEq] at h
        subst h
        exact ⟨by simpa using hh, w, rfl, hd⟩

/-- A step that executes an instruction has that instruction's fault. -/
theorem stepFault_of_nextInstr {s : State} {i : Instr} (h : s.nextInstr = some i) : stepFault s = instrFault i s := by
  obtain ⟨_, w, hw, hd⟩ := nextInstr_word h
  unfold stepFault; simp only [hw, hd]

end Sys2Proof.Machine
end

