-- ==== Sys2Proof/Laws/Frame.lean ====
section
/-! SUPPORT. What the writes of an instruction leave alone, one lemma per piece of state; and runs of several steps. -/

namespace Sys2Proof.Machine

/-- I is written by LD I, ADD I and LD F only (R13). -/
theorem effect_idx (i : Instr) (s : State) :
    (effect i s).idx = s.idx ∨ (∃ n, i = .ldINnn n) ∨ (∃ x, i = .addIVx x) ∨ ∃ x, i = .ldFVx x := by
  cases i <;> try (left; rfl)
  case ldINnn n => exact .inr (.inl ⟨n, rfl⟩)
  case addIVx n => exact .inr (.inr (.inl ⟨n, rfl⟩))
  case ldFVx n => exact .inr (.inr (.inr ⟨n, rfl⟩))
  case ldVxK x => left; simp only [effect]; split <;> [split; skip] <;> rfl
  case ldBVx x => left; simp only [effect]; rw [State.writeBytes_eq_withMem]
  case ldMemVx x => left; simp only [effect]; rw [State.writeBytes_eq_withMem]
  case ldVxMem x => left; simp only [effect]; rw [State.setRegsFrom_eq_withRegs]

/-- The framebuffer is written by CLS and DRW only (R22). -/
theorem effect_fb (i : Instr) (s : State) : (effect i s).fb = s.fb ∨ i = .cls ∨ (∃ x y n, i = .drwVxVyN x y n) := by
  cases i <;> try (left; rfl)
  case cls => exact .inr (.inl rfl)
  case drwVxVyN x y n => exact .inr (.inr ⟨x, y, n, rfl⟩)
  case ldVxK x => left; simp only [effect]; split <;> [split; skip] <;> rfl
  case ldBVx x => left; simp only [effect]; rw [State.writeBytes_eq_withMem]
  case ldMemVx x => left; simp only [effect]; rw [State.writeBytes_eq_withMem]
  case ldVxMem x => left; simp only [effect]; rw [State.setRegsFrom_eq_withRegs]

/-- The key-wait latch is written by LD Vx, K only (R23). -/
theorem effect_latch (i : Instr) (s : State) :
    ((effect i s).kwActive = s.kwActive ∧ (effect i s).kwSnap = s.kwSnap) ∨ (∃ x, i = .ldVxK x) := by
  cases i <;> try (left; exact ⟨rfl, rfl⟩)
  case ldVxK x => exact .inr ⟨x, rfl⟩
  case ldBVx x => left; simp only [effect]; rw [State.writeBytes_eq_withMem]; exact ⟨rfl, rfl⟩
  case ldMemVx x => left; simp only [effect]; rw [State.writeBytes_eq_withMem]; exact ⟨rfl, rfl⟩
  case ldVxMem x => left; simp only [effect]; rw [State.setRegsFrom_eq_withRegs]; exact ⟨rfl, rfl⟩

/-- No instruction writes the glyph-table parameter (R5). -/
theorem effect_font (i : Instr) (s : State) : (effect i s).font = s.font := by
  cases i <;> try rfl
  case ldVxK x => simp only [effect]; split <;> [split; skip] <;> rfl
  case ldBVx x => simp only [effect]; rw [State.writeBytes_eq_withMem]
  case ldMemVx x => simp only [effect]; rw [State.writeBytes_eq_withMem]
  case ldVxMem x => simp only [effect]; rw [State.setRegsFrom_eq_withRegs]

/-- No instruction writes the cause code but by raising a fault (R24). -/
theorem effect_cause (i : Instr) (s : State) : (effect i s).cause = s.cause := by
  cases i <;> try rfl
  case ldVxK x => simp only [effect]; split <;> [split; skip] <;> rfl
  case ldBVx x => simp only [effect]; rw [State.writeBytes_eq_withMem]
  case ldMemVx x => simp only [effect]; rw [State.writeBytes_eq_withMem]
  case ldVxMem x => simp only [effect]; rw [State.setRegsFrom_eq_withRegs]

/-- No instruction consumes an input: the step does. -/
theorem effect_environment (i : Instr) (s : State) : (effect i s).inputs = s.inputs ∧ (effect i s).tick = s.tick := by
  cases i <;> try exact ⟨rfl, rfl⟩
  case ldVxK x => simp only [effect]; split <;> [split; skip] <;> exact ⟨rfl, rfl⟩
  case ldBVx x => simp only [effect]; rw [State.writeBytes_eq_withMem]; exact ⟨rfl, rfl⟩
  case ldMemVx x => simp only [effect]; rw [State.writeBytes_eq_withMem]; exact ⟨rfl, rfl⟩
  case ldVxMem x => simp only [effect]; rw [State.setRegsFrom_eq_withRegs]; exact ⟨rfl, rfl⟩

/-- Neither does the part of a committed step before its timers. -/
theorem committed_environment (s : State) : (committed s).inputs = s.inputs ∧ (committed s).tick = s.tick := by
  unfold committed
  split
  · exact effect_environment _ s.clearCycleFlags
  · exact ⟨rfl, rfl⟩

/-- The timers are written by LD DT and LD ST only (R19). -/
theorem effect_timers (i : Instr) (s : State) :
    (effect i s).dt = (match i with | .ldDtVx x => s.V x | _ => s.dt) ∧
    (effect i s).st = (match i with | .ldStVx x => s.V x | _ => s.st) := by
  cases i <;> try exact ⟨rfl, rfl⟩
  case ldVxK x => simp only [effect]; split <;> [split; skip] <;> exact ⟨rfl, rfl⟩
  case ldBVx x => simp only [effect]; rw [State.writeBytes_eq_withMem]; exact ⟨rfl, rfl⟩
  case ldMemVx x => simp only [effect]; rw [State.writeBytes_eq_withMem]; exact ⟨rfl, rfl⟩
  case ldVxMem x => simp only [effect]; rw [State.setRegsFrom_eq_withRegs]; exact ⟨rfl, rfl⟩

/-- The call stack and its pointer are written by RET and CALL only (R17). -/
theorem effect_callStack (i : Instr) (s : State) :
    ((effect i s).sp = s.sp ∧ (effect i s).stack = s.stack) ∨ i = .ret ∨ ∃ n, i = .call n := by
  cases i <;> try exact .inl ⟨rfl, rfl⟩
  case ret => exact .inr (.inl rfl)
  case call n => exact .inr (.inr ⟨n, rfl⟩)
  case ldVxK x => left; simp only [effect]; split <;> [split; skip] <;> exact ⟨rfl, rfl⟩
  case ldBVx x => left; simp only [effect]; rw [State.writeBytes_eq_withMem]; exact ⟨rfl, rfl⟩
  case ldMemVx x => left; simp only [effect]; rw [State.writeBytes_eq_withMem]; exact ⟨rfl, rfl⟩
  case ldVxMem x => left; simp only [effect]; rw [State.setRegsFrom_eq_withRegs]; exact ⟨rfl, rfl⟩

/-- The per-cycle flags are set by CLS, DRW and SYS only (R26, R28). -/
theorem effect_cycleFlags (i : Instr) (s : State) :
    ((effect i s).redraw = true ↔ s.redraw = true ∨ i = .cls ∨ ∃ x y n, i = .drwVxVyN x y n) ∧
    ((effect i s).unrec = true ↔ s.unrec = true ∨ ∃ n, i = .sys n) := by
  cases i <;> simp [effect]
  case ldVxK x => split <;> [split; skip] <;> simp
  case ldBVx x => rw [State.writeBytes_eq_withMem]; simp
  case ldMemVx x => rw [State.writeBytes_eq_withMem]; simp
  case ldVxMem x => rw [State.setRegsFrom_eq_withRegs]; simp

/-- Memory is written by LD B and LD [I] only (R41). -/
theorem effect_mem (i : Instr) (s : State) :
    (effect i s).mem = s.mem ∨ (∃ x, i = .ldBVx x) ∨ ∃ x, i = .ldMemVx x := by
  cases i <;> try exact .inl rfl
  case ldVxK x => left; simp only [effect]; split <;> [split; skip] <;> rfl
  case ldBVx x => exact .inr (.inl ⟨x, rfl⟩)
  case ldMemVx x => exact .inr (.inr ⟨x, rfl⟩)
  case ldVxMem x => left; simp only [effect]; rw [State.setRegsFrom_eq_withRegs]

/-- The general registers an instruction may change are those of `Instr.writesReg` (R10, R11, R155). -/
theorem effect_V (i : Instr) (s : State) (k : RegIx) : (effect i s).V k = s.V k ∨ i.writesReg k := by
  have two : ∀ (s:State) (x : RegIx) (v f : Byte), ((s.setV x v).setV 15 f).V k = s.V k ∨ (k = x ∨ k = 15) := by
    intro s x v f
    by_cases h1 : k = 15
    · exact .inr (.inr h1)
    · by_cases h2 : k = x
      · exact .inr (.inl h2)
      · left; rw [State.V_setV_other _ _ h1, State.V_setV_other _ _ h2]
  have one : ∀ (s:State) (x : RegIx) (v : Byte), (s.setV x v).V k = s.V k ∨ k = x := by
    intro s x v
    by_cases h2 : k = x
    · exact .inr h2
    · left; rw [State.V_setV_other _ _ h2]
  cases i <;> try first | exact .inl rfl | exact one _ _ _ | exact two _ _ _ _
  case ldVxK x =>
    simp only [effect]
    split
    · split
      · exact .inl rfl
      · exact one _ _ _
    · exact .inl rfl
  case ldBVx x => left; simp only [effect]; rw [State.writeBytes_eq_withMem]; rfl
  case ldMemVx x => left; simp only [effect]; rw [State.writeBytes_eq_withMem]; rfl
  case ldVxMem x =>
    simp only [effect, Instr.writesReg]
    by_cases h : k.toNat ≤ x.toNat
    · exact .inr h
    · left; unfold State.V
      have := x.isLt
      rw [State.setRegsFrom_getElem _ _ _ (by rw [State.readBytes_length]; omega)]
      rw [dif_neg (by rw [State.readBytes_length]; omega)]

/-- The set bits of the sprite at I, as the drawing operation meets them, are those of `spriteCovers`. -/
theorem spriteCovers_iff (s : State) (vx vy : RegIx) (n : Nat) (y x : Nat) (hy : y < 32) (hx : x < 64) :
   (∃ j, ∃ h : j < (s.readBytes s.idx.toNat n).length, ((s.V vy).toNat + (0 + j)) % 32 = y % 32 ∧
          ∃ c, c < 8 ∧ (s.readBytes s.idx.toNat n)[j].getLsbD (7 - c) = true ∧ ((s.V vx).toNat + c) % 64 = x % 64) ↔
   spriteCovers s vx vy n y x := by
  unfold spriteCovers
  constructor
  · rintro ⟨j, h, h1, c, hc, hb, h2⟩
    rw [State.readBytes_getElem] at hb
    rw [State.readBytes_length] at h
    exact ⟨j, c, h, hc, by omega, by omega, hb⟩
  · rintro ⟨j, c, h, hc, h1, h2, hb⟩
    exact ⟨j, by rwa [State.readBytes_length], by omega, c, hc, by rwa [State.readBytes_getElem], by omega⟩

/-- What drawing the sprite at I does to every pixel, and when it reports a collision (R171). -/
theorem drawn_spec (s : State) (vx vy : RegIx) (n : Nibble) :
   let d := drawRows (s.V vx).toNat (s.V vy).toNat 0 (s.readBytes s.idx.toNat n.toNat) (s.fb, false)
   (∀ y x, y < 32 → x < 64 → (pixel d.1 y x = true ↔ ¬(s.FB y x = true ↔ spriteCovers s vx vy n.toNat y x))) ∧
   (d.2 = true ↔ ∃ y x, y < 32 ∧ x < 64 ∧ spriteCovers s vx vy n.toNat y x ∧ s.FB y x = true) := by
  intro d
  obtain ⟨h1, h2⟩ := drawRows_spec (s.V vx).toNat (s.V vy).toNat (s.readBytes s.idx.toNat n.toNat) 0 (s.fb, false) (by rw [State.readBytes_length]; have := n.isLt; omega)
  refine ⟨fun y x hy hx => ?_, ?_⟩
  · rw [h1 y x, spriteCovers_iff s vx vy n.toNat y x hy hx]; rfl
  · rw [h2]
    simp only [Bool.false_eq_true, false_or]
    constructor
    · rintro ⟨j, h, c, hc, hb, hp⟩
      rw [State.readBytes_getElem] at hb
      rw [State.readBytes_length] at h
      refine ⟨((s.V vy).toNat + j) % 32, ((s.V vx).toNat + c) % 64, Nat.mod_lt _ (by decide), Nat.mod_lt _ (by decide), ⟨j, c, h, hc, rfl, rfl, hb⟩, ?_⟩
      simpa [State.FB, pixel] using hp
    · rintro ⟨y, x, hy, hx, ⟨j, c, h, hc, rfl, rfl, hb⟩, hp⟩
      refine ⟨j, by rwa [State.readBytes_length], c, hc, by rwa [State.readBytes_getElem], ?_⟩
      simpa [State.FB, pixel] using hp

/-- The last step of a run. -/
theorem stepsTo_succ (n : Nat) (s : State) : stepsTo (n+1) s = stepTo (stepsTo n s) := by
  induction n generalizing s with
  | zero => rfl
  | succ n ih => rw [stepsTo, ih, stepsTo]

end Sys2Proof.Machine
end

