-- ==== Sys2Proof/Tests/Slice0.lean ====
section
/-! SUPPORT. Tests. The expected results are those of spec/95_test_vectors.md (the vector's id stands in each comment)
or of the example in the rule named, never the model's own answer. At the end, a witness for the hypotheses of each
statement of Obligations.lean that has some. -/

namespace Sys2Proof.Tests

open Sys2Proof Sys2Proof.Machine

/-! ### Helpers -/

/-- The reset state with some registers set. -/
def regs (l : List (RegIx × Byte)) : State := l.foldl (fun s p => s.setV p.1 p.2) State.reset

/-- The same state with the next step's keys. -/
def withKeys (k : Keys) (s : State) : State := { s with inputs := [⟨k, 0⟩] }

/-- The state after one step of the word `w`, placed at `pc`. -/
def after (w : Nat) (s : State) : State := stepTo (s.withFetchWord 16 w)

/-- The reset state at another `pc`. -/
def at_ (pc : Addr) : State := { State.reset with pc := pc }

/-- How a step ended: the pc, and the cause code with `halted`. -/
def ended (s : State) : Addr × Bool × BitVec 3 := (s.pc, s.halted, s.cause)

/-! ### Well-formedness: the one check of WellFormed.lean -/

/-- SYS with the word of CLS or of RET is no instruction (R65). -/
theorem test_sys_with_the_word_of_cls_is_ill_formed : ¬ (Instr.sys 0x0E0).WellFormed := by decide
theorem test_sys_with_the_word_of_ret_is_ill_formed : ¬ (Instr.sys 0x0EE).WellFormed := by decide
theorem test_other_terms_are_well_formed :
    (Instr.sys 0x0E1).WellFormed ∧ (Instr.sys 0).WellFormed ∧ (Instr.drwVxVyN 15 15 15).WellFormed := by decide

/-! ### Decoding: a word written out from the pattern of R64 for every constructor -/

/-- A word that meets a row's mask and match decodes to that row's instruction. -/
def decodesAs (w mask row : Word) (i : Instr) : Prop := w &&& mask = row ∧ decodeWord w = .ok i ∧ i.WellFormed

theorem test_decode_family_0 :
    decodesAs 0x00E0 0xFFFF 0x00E0 .cls ∧
    decodesAs 0x00EE 0xFFFF 0x00EE .ret ∧
    decodesAs 0x0FFF 0xF000 0x0000 (.sys 0xFFF) := by
  unfold decodesAs; decide

theorem test_decode_jumps :
    decodesAs 0x1FED 0xF000 0x1000 (.jp 0xFED) ∧
    decodesAs 0x2ABC 0xF000 0x2000 (.call 0xABC) ∧
    decodesAs 0xB3F0 0xF000 0xB000 (.jpV0Nnn 0x3F0) := by
  unfold decodesAs; decide

theorem test_decode_skips :
    decodesAs 0x332A 0xF000 0x3000 (.seVxKk 3 0x2A) ∧
    decodesAs 0x4F0E 0xF000 0x4000 (.sneVxKk 15 0x0E) ∧
    decodesAs 0x512F 0xF000 0x5000 (.seVxVy 1 2) ∧
    decodesAs 0x9AB0 0xF000 0x9000 (.sneVxVy 10 11) := by
  unfold decodesAs; decide

theorem test_decode_loads_and_adds :
    decodesAs 0x6FAB 0xF000 0x6000 (.ldVxKk 15 0xAB) ∧
    decodesAs 0x7220 0xF000 0x7000 (.addVxKk 2 0x20) ∧
    decodesAs 0xC30F 0xF000 0xC000 (.rndVxKk 3 0x0F) := by
  unfold decodesAs; decide

theorem test_decode_family_8 :
    decodesAs 0x8340 0xF00F 0x8000 (.ldVxVy 3 4) ∧
    decodesAs 0x8121 0xF00F 0x8001 (.orVxVy 1 2) ∧
    decodesAs 0x8122 0xF00F 0x8002 (.andVxVy 1 2) ∧
    decodesAs 0x8123 0xF00F 0x8003 (.xorVxVy 1 2) ∧
    decodesAs 0x8F14 0xF00F 0x8004 (.addVxVy 15 1) ∧
    decodesAs 0x81F5 0xF00F 0x8005 (.subVxVy 1 15) ∧
    decodesAs 0x8576 0xF00F 0x8006 (.shrVx 5) ∧
    decodesAs 0x8127 0xF00F 0x8007 (.subnVxVy 1 2) ∧
    decodesAs 0x85FE 0xF00F 0x800E (.shlVx 5) := by
  unfold decodesAs; decide

theorem test_decode_index_and_memory :
    decodesAs 0xA2F0 0xF000 0xA000 (.ldINnn 0x2F0) ∧
    decodesAs 0xF21E 0xF0FF 0xF01E (.addIVx 2) ∧
    decodesAs 0xF429 0xF0FF 0xF029 (.ldFVx 4) ∧
    decodesAs 0xF033 0xF0FF 0xF033 (.ldBVx 0) ∧
    decodesAs 0xFF55 0xF0FF 0xF055 (.ldMemVx 15) ∧
    decodesAs 0xF265 0xF0FF 0xF065 (.ldVxMem 2) := by
  unfold decodesAs; decide

theorem test_decode_display :
    decodesAs 0xD12F 0xF000 0xD000 (.drwVxVyN 1 2 15) := by
  unfold decodesAs; decide

theorem test_decode_keypad :
    decodesAs 0xE29E 0xF0FF 0xE09E (.skpVx 2) ∧
    decodesAs 0xE2A1 0xF0FF 0xE0A1 (.sknpVx 2) ∧
    decodesAs 0xF30A 0xF0FF 0xF00A (.ldVxK 3) := by
  unfold decodesAs; decide

theorem test_decode_timers :
    decodesAs 0xF407 0xF0FF 0xF007 (.ldVxDt 4) ∧
    decodesAs 0xF415 0xF0FF 0xF015 (.ldDtVx 4) ∧
    decodesAs 0xF418 0xF0FF 0xF018 (.ldStVx 4) := by
  unfold decodesAs; decide

/-- The unrecognized words at the edges of R66's table (vectors N4 to N8). -/
theorem test_decode_rejects :
    decodeWord 0x8128 = .error (.unrecognized 0x8128) ∧ decodeWord 0x812D = .error (.unrecognized 0x812D) ∧
    decodeWord 0x812F = .error (.unrecognized 0x812F) ∧ decodeWord 0xE29F = .error (.unrecognized 0xE29F) ∧
    decodeWord 0xE29D = .error (.unrecognized 0xE29D) ∧ decodeWord 0xF000 = .error (.unrecognized 0xF000) ∧
    decodeWord 0xF275 = .error (.unrecognized 0xF275) ∧ decodeWord 0xFFFF = .error (.unrecognized 0xFFFF) := by decide

/-- A list shorter than two bytes is no instruction; the high byte comes first (R42, R60). -/
theorem test_decode_bytes :
    decode [0x12, 0x34, 0x56] = .ok (.jp 0x234, [0x56]) ∧ decode [0x12] = .error .truncated ∧
    decode [] = .error .truncated := by decide

/-- The table's numbering: the whole word, bit 0 its least significant bit. -/
theorem test_decode_table_word :
    decodeTableWord 16 0x1234 = some (.jp 0x234) ∧ decodeTableWord 16 0x8128 = none := by decide

/-! ### One step, from the vectors of spec/95_test_vectors.md -/

/-- Vectors N1, N3. -/
theorem test_sys_is_a_no_op :
    ended (after 0x0000 State.reset) = (0x202, false, 0) ∧ (after 0x0123 State.reset).unrec = true := by decide

/-- Vector N11. -/
theorem test_sys_at_the_top_faults :
    ended (after 0x0000 (at_ 0xFFE)) = (0xFFE, true, 2) ∧ (after 0x0000 (at_ 0xFFE)).unrec = false := by decide

/-- Vector N4. -/
theorem test_unrecognized_word :
    ended (after 0x8128 { State.reset with dt := 3 }) = (0x202, false, 0) ∧
    (after 0x8128 { State.reset with dt := 3 }).dt = 2 ∧ (after 0x8128 State.reset).unrec = true := by decide

/-- Vector N12. -/
theorem test_halted_core :
    after 0x6005 { State.reset with halted := true, cause := 4, dt := 9 } =
      State.withFetchWord { State.reset with halted := true, cause := 4, dt := 9 } 16 0x6005 := by decide

/-- Vectors C1, C2. -/
theorem test_jp :
    (after 0x1234 State.reset).pc = 0x234 ∧ (after 0x1200 State.reset).pc = 0x200 := by decide

/-- Vector C3: FetchRange on the next step. -/
theorem test_jp_to_the_last_address :
    ended (after 0x1FFF State.reset) = (0xFFF, false, 0) ∧
    ended (stepTo (after 0x1FFF State.reset)) = (0xFFF, true, 1) := by decide

/-- Vectors C9, C10. -/
theorem test_call :
    ((after 0x2300 State.reset).stack[0], (after 0x2300 State.reset).sp, (after 0x2300 State.reset).pc) =
      (0x202, 1, 0x300) ∧
    ((after 0x2ABC { at_ 0x400 with sp := 15 }).stack[15], (after 0x2ABC { at_ 0x400 with sp := 15 }).sp) =
      (0x402, 16) := by decide

/-- Vectors C11 to C13. -/
theorem test_call_faults :
    ended (after 0x2300 { State.reset with sp := 16 }) = (0x200, true, 3) ∧
    ended (after 0x2300 (at_ 0xFFE)) = (0xFFE, true, 2) ∧
    ended (after 0x2300 { at_ 0xFFE with sp := 16 }) = (0xFFE, true, 3) := by decide

/-- One return address, 0x204, on the stack (vector C14). -/
def called : State := { State.reset with sp := 1, stack := State.reset.stack.set 0 0x204 }

/-- Vector C14. -/
theorem test_ret :
    ((after 0x00EE called).sp, (after 0x00EE called).pc, (after 0x00EE called).stack[0]) = (0, 0x204, 0x204) := by decide

/-- Vector C15. -/
theorem test_ret_faults :
    ended (after 0x00EE State.reset) = (0x200, true, 4) := by decide

/-- Vectors C5, C6. -/
theorem test_se_immediate :
    (after 0x332A (regs [(3, 0x2A)])).pc = 0x204 ∧ (after 0x332A (regs [(3, 0x2B)])).pc = 0x202 := by decide

/-- Vectors C7, C8. -/
theorem test_sne_immediate :
    (after 0x432A (regs [(3, 0x2A)])).pc = 0x202 ∧ (after 0x432A State.reset).pc = 0x204 := by decide

/-- Vectors C16, C17. -/
theorem test_se_registers :
    (after 0x5120 (regs [(1, 7), (2, 7)])).pc = 0x204 ∧ (after 0x5120 (regs [(1, 7), (2, 8)])).pc = 0x202 := by decide

/-- Vectors C18, C19. -/
theorem test_sne_registers :
    (after 0x9120 (regs [(1, 7), (2, 8)])).pc = 0x204 ∧ (after 0x9120 (regs [(1, 7), (2, 7)])).pc = 0x202 := by decide

/-- Vectors C25, C26. -/
theorem test_skip_at_the_top :
    ended (after 0x3000 (at_ 0xFFC)) = (0xFFC, true, 2) ∧
    ended (after 0x3000 { regs [(0, 1)] with pc := 0xFFC }) = (0xFFE, false, 0) := by decide

/-- Vectors C22 to C24. -/
theorem test_jp_v0 :
    (after 0xBF00 (regs [(0, 0xFF)])).pc = 0xFFF ∧ ended (after 0xBFFF (regs [(0, 0xFF)])) = (0x200, true, 2) ∧
    (after 0xB3F0 (regs [(0, 0x10), (3, 0x55)])).pc = 0x400 := by decide

/-- Vectors A2, A34. -/
theorem test_ld_immediate :
    (after 0x6FAB State.reset).V 15 = 0xAB ∧ (after 0x6005 (at_ 0xFFE)).V 0 = 0 := by decide

/-- Vectors A3, A4. -/
theorem test_add_immediate :
    (after 0x7220 (regs [(2, 0xF0)])).V 2 = 0x10 ∧
    ((after 0x7201 (regs [(2, 0xFF), (15, 7)])).V 2, (after 0x7201 (regs [(2, 0xFF), (15, 7)])).V 15) = (0, 7) := by
  decide

/-- Vector A5. -/
theorem test_ld_register :
    (after 0x8340 (regs [(4, 9)])).V 3 = 9 := by decide

/-- Vector A6. -/
theorem test_or :
    ((after 0x8121 (regs [(1, 0x0F), (2, 0xF0), (15, 5)])).V 1,
      (after 0x8121 (regs [(1, 0x0F), (2, 0xF0), (15, 5)])).V 15) = (0xFF, 5) := by decide

/-- Vector A7. -/
theorem test_and :
    (after 0x8122 (regs [(1, 0x3C), (2, 0x0F)])).V 1 = 0x0C := by decide

/-- Vector A8. -/
theorem test_xor :
    (after 0x8123 (regs [(1, 0xFF), (2, 0x0F)])).V 1 = 0xF0 ∧ (after 0x8113 (regs [(1, 0xFF)])).V 1 = 0 := by decide

/-- V[x] and VF after a word. -/
def resultFlag (x : RegIx) (s : State) : Byte × Byte := (s.V x, s.V 15)

/-- Vectors A11, A12. -/
theorem test_add :
    resultFlag 3 (after 0x8344 (regs [(3, 255)])) = (255, 0) ∧
    resultFlag 3 (after 0x8344 (regs [(3, 255), (4, 1)])) = (0, 1) := by decide

/-- Vectors A14, A15. -/
theorem test_add_to_vf :
    (after 0x8F14 (regs [(15, 0xFF), (1, 1)])).V 15 = 1 ∧
    resultFlag 1 (after 0x81F4 (regs [(1, 5), (15, 3)])) = (8, 0) := by decide

/-- Vectors A16, A17. -/
theorem test_sub :
    resultFlag 1 (after 0x8125 (regs [(1, 10), (2, 3)])) = (7, 1) ∧
    resultFlag 1 (after 0x8125 (regs [(1, 3), (2, 10)])) = (249, 0) := by decide

/-- Vector A18: the comparison is strict. -/
theorem test_sub_of_equals :
    resultFlag 3 (after 0x8345 (regs [(3, 7), (4, 7)])) = (0, 0) := by decide

/-- Vectors A19, A21. -/
theorem test_shr :
    resultFlag 5 (after 0x8506 (regs [(5, 0x0B)])) = (0x05, 1) ∧
    resultFlag 5 (after 0x8576 (regs [(5, 0x01), (7, 0xFE)])) = (0, 1) := by decide

/-- Vector A22. -/
theorem test_shr_of_vf :
    (after 0x8F06 (regs [(15, 0x81)])).V 15 = 1 := by decide

/-- Vectors A23 to A25. -/
theorem test_subn :
    resultFlag 1 (after 0x8127 (regs [(1, 3), (2, 10)])) = (7, 1) ∧
    resultFlag 1 (after 0x8127 (regs [(1, 10), (2, 3)])) = (249, 0) ∧
    resultFlag 3 (after 0x8347 (regs [(3, 7), (4, 7)])) = (0, 0) := by decide

/-- Vectors A27, A29. -/
theorem test_shl :
    resultFlag 5 (after 0x850E (regs [(5, 0xC1)])) = (0x82, 1) ∧
    resultFlag 5 (after 0x850E (regs [(5, 0x7F)])) = (0xFE, 0) := by decide

/-- Vectors A31, A33. -/
theorem test_rnd :
    (after 0xC30F { State.reset with inputs := [⟨0, 0xA7⟩] }).V 3 = 0x07 ∧
    (after 0xC3FF { State.reset with inputs := [⟨0, 0xA7⟩] }).V 3 = 0xA7 := by decide

/-- Vector M1. -/
theorem test_ld_i :
    (after 0xA2F0 State.reset).idx = 0x2F0 := by decide

/-- Vectors M3, M4. -/
theorem test_add_i :
    (after 0xF21E { regs [(2, 0xFE)] with idx := 0xF01 }).idx = 0xFFF ∧
    ended (after 0xF21E { regs [(2, 1)] with idx := 0xFFF }) = (0x200, true, 6) ∧
    (after 0xF21E { regs [(2, 1)] with idx := 0xFFF }).idx = 0xFFF := by decide

/-- Vectors M5, M6. -/
theorem test_ld_f :
    (after 0xF429 (regs [(4, 0x0A)])).idx = 0x032 ∧ (after 0xF429 (regs [(4, 0xFF)])).idx = 0x4FB := by decide

/-- Vectors M7, M8 (and S8: Mem[3] keeps its glyph byte). -/
theorem test_ld_b :
    (after 0xF033 (regs [(0, 15)])).readBytes 0 4 = [0, 1, 5, 0x90] ∧
    (after 0xF033 { regs [(0, 255)] with idx := 0xFFD }).readBytes 0xFFD 3 = [2, 5, 5] := by decide

/-- Vector M10. -/
theorem test_ld_b_faults :
    ended (after 0xF033 { State.reset with idx := 0xFFE }) = (0x200, true, 5) ∧
    (after 0xF033 { regs [(0, 255)] with idx := 0xFFE }).readBytes 0xFFE 2 = [0, 0] := by decide

/-- Vector M11. -/
theorem test_ld_mem :
    (after 0xF255 { regs [(0, 1), (1, 2), (2, 3), (3, 4)] with idx := 0x400 }).readBytes 0x400 4 = [1, 2, 3, 0] ∧
    (after 0xF255 { regs [(0, 1), (1, 2), (2, 3), (3, 4)] with idx := 0x400 }).idx = 0x400 := by decide

/-- Vectors M12, M13. -/
theorem test_ld_mem_faults :
    ended (after 0xFF55 { State.reset with idx := 0xFF0 }) = (0x202, false, 0) ∧
    ended (after 0xFF55 { State.reset with idx := 0xFF1 }) = (0x200, true, 5) := by decide

/-- Four bytes at 0x400 and I at the first (vector M14). -/
def table4 : State := { (regs [(3, 0x77)]).writeBytes 0x400 [0x0A, 0x0B, 0x0C, 0x0D] with idx := 0x400 }

/-- Vector M14. -/
theorem test_ld_regs :
    ((after 0xF265 table4).V 0, (after 0xF265 table4).V 1, (after 0xF265 table4).V 2, (after 0xF265 table4).V 3,
      (after 0xF265 table4).idx) = (0x0A, 0x0B, 0x0C, 0x77, 0x400) := by decide

/-- Vectors M15, M16. -/
theorem test_ld_regs_faults :
    ended (after 0xF165 { State.reset with idx := 0xFFF }) = (0x200, true, 5) ∧
    (after 0xF065 { State.reset.writeByte 0xFFF 0x5A with idx := 0xFFF }).V 0 = 0x5A := by decide

/-- Vector V1. -/
theorem test_cls :
    (after 0x00E0 { State.reset with fb := togglePixel State.reset.fb 3 4 }).fb = Vector.replicate 32 0 ∧
    (after 0x00E0 State.reset).redraw = true := by decide

/-- Vector V5: glyph 0 at column 62, row 30; bit c of row r is FB[r][c]. -/
theorem test_drw_wraps :
    (let t := after 0xD015 (regs [(0, 62), (1, 30)])
     (t.fb[30], t.fb[31], t.fb[0], t.fb[1], t.fb[2], t.fb[3])) =
      (0xC000000000000003, 0x4000000000000002, 0x4000000000000002, 0x4000000000000002, 0xC000000000000003, 0) ∧
    (after 0xD015 (regs [(0, 62), (1, 30)])).V 15 = 0 ∧ (after 0xD015 (regs [(0, 62), (1, 30)])).redraw = true := by
  decide

/-- Vectors V7, V10, V8. -/
theorem test_drw_collides :
    (let t := after 0xD011 { State.reset.writeByte 0x300 0xC0 with idx := 0x300, fb := togglePixel State.reset.fb 0 0 }
     (t.fb[0], t.V 15)) = (0x2, 1) ∧
    ended (after 0xD002 { State.reset with idx := 0xFFF }) = (0x200, true, 5) ∧
    (after 0xD000 { regs [(15, 9)] with idx := 0xFFF }).V 15 = 0 := by decide

/-- Vectors K1, K6. -/
theorem test_skp :
    (after 0xE29E (withKeys 0x0080 (regs [(2, 7)]))).pc = 0x204 ∧
    ended (after 0xE29E (withKeys 0 (regs [(2, 16)]))) = (0x200, true, 7) := by decide

/-- Vectors K3, K7. -/
theorem test_sknp :
    (after 0xE2A1 (withKeys 0x0080 (regs [(2, 7)]))).pc = 0x202 ∧
    ended (after 0xE2A1 (withKeys 0 { regs [(2, 0x20)] with pc := 0xFFE })) = (0xFFE, true, 7) := by decide

/-- Two samples: the faulting step takes the first, so the step after the reset input reads the second (R80, R180). -/
theorem test_fault_takes_its_sample :
    (stepTo { at_ 0xFFF with inputs := [⟨4, 1⟩, ⟨8, 2⟩] }).rst.sample = ⟨8, 2⟩ ∧
    (after 0x00EE { State.reset with inputs := [⟨4, 1⟩, ⟨8, 2⟩] }).rst.sample = ⟨8, 2⟩ := by decide

/-- The core waiting for a key. -/
def waiting (snap : Keys) : State := { State.reset with kwActive := true, kwSnap := snap, dt := 5 }

/-- Vectors K8, K9, K13. -/
theorem test_wait_entry_and_wait :
    (let t := after 0xF30A (withKeys 4 State.reset); (t.kwActive, t.kwSnap, t.pc)) = (true, 4, 0x200) ∧
    (let t := after 0xF30A (withKeys 4 (waiting 4)); (t.kwActive, t.kwSnap, t.pc, t.dt)) = (true, 4, 0x200, 4) := by
  decide

/-- Vectors K11, K12, K14. -/
theorem test_wait_release :
    (let t := after 0xF30A (withKeys 0 (waiting 4)); (t.V 3, t.kwActive, t.pc)) = (2, false, 0x202) ∧
    (after 0xF30A (withKeys 0x8100 (waiting 0))).V 3 = 8 ∧
    (let t := after 0xF30A (withKeys 1 { waiting 0 with pc := 0xFFE }); (t.cause, t.kwActive)) = (2, true) := by
  decide

/-- Vector T4. -/
theorem test_ld_from_dt :
    ((after 0xF407 { State.reset with dt := 9 }).V 4, (after 0xF407 { State.reset with dt := 9 }).dt) = (9, 8) := by
  decide

/-- Vectors T1 to T3. -/
theorem test_ld_dt :
    (after 0xF415 (regs [(4, 5)])).dt = 4 ∧ (after 0xF415 (regs [(4, 1)])).dt = 0 ∧ (after 0xF415 State.reset).dt = 0 := by
  decide

/-- Vectors T6, T7. -/
theorem test_ld_st :
    ((after 0xF418 (regs [(4, 3)])).st, (after 0xF418 (regs [(4, 3)])).tone) = (2, true) ∧
    ((after 0xF418 (regs [(4, 1)])).st, (after 0xF418 (regs [(4, 1)])).tone) = (0, false) := by decide

/-- Vector R2. -/
theorem test_reset_memory :
    State.reset.readBytes 0 5 = [0xF0, 0x90, 0x90, 0x90, 0xF0] ∧
    State.reset.readBytes 0x04B 6 = [0xF0, 0x80, 0xF0, 0x80, 0x80, 0] ∧ State.reset.readByte 0xFFF = 0 := by decide

/-- Vector R3. -/
theorem test_load :
    (State.reset.load [0xAA, 0xBB, 0xCC]).state.readBytes 0x200 4 = [0xAA, 0xBB, 0xCC, 0] ∧
    (State.reset.load [0xAA, 0xBB, 0xCC]).loadErr = false := by decide

/-- Vector R5: 3585 bytes are refused whole. -/
theorem test_load_too_large : State.reset.load (List.replicate 3585 1) = ⟨State.reset, true⟩ := by
  unfold State.load; rw [List.length_replicate, if_pos (by decide)]

/-! ### Witnesses: concrete states and operands that meet the hypotheses of each statement -/

/-- The hypotheses "the next step executes `i`" and "the core is not halted". -/
def about (s : State) (i : Instr) : Prop := s.halted = false ∧ s.nextInstr = some i

/-- A step that commits, with its instruction. -/
def commitsWith (s : State) (i : Option Instr) : Prop :=
  s.halted = false ∧ s.nextInstr = i ∧ (stepTo s).halted = false

/-- The reset state with a word at its `pc`. -/
def word (w : Nat) (s : State) : State := s.withFetchWord 16 w

theorem witness_DecodeOfEncode :
    (Instr.sys 0x123).WellFormed ∧ (Instr.drwVxVyN 1 2 15).WellFormed ∧ ¬(Instr.sys 0x0E0).WellFormed := by decide

theorem witness_EncodeOfDecode :
    decodeWord 0x512F = .ok (.seVxVy 1 2) ∧ decodeWord 0x85FE = .ok (.shlVx 5) ∧ decodeWord 0x0FFF = .ok (.sys 0xFFF) :=
  by decide

theorem witness_FetchReadsTwoBytes :
    (at_ 0).pc.toNat ≤ 0xFFE ∧ (at_ 0xFFE).pc.toNat ≤ 0xFFE ∧ 0xFFE < (at_ 0xFFF).pc.toNat := by decide

theorem witness_StepRuns :
    (word 0x6005 State.reset).halted = false ∧ (word 0x6005 State.reset).wordAtPc = some 0x6005 ∧
    decodeWord 0x6005 = .ok (.ldVxKk 0 5) ∧
    ∃ t, exec (.ldVxKk 0 5) { word 0x6005 State.reset with redraw := false, tone := false, unrec := false } = .next t :=
  ⟨by decide, by decide, by decide, _, rfl⟩

theorem witness_UnrecognizedWord :
    (word 0x8128 (at_ 0xFFD)).wordAtPc = some 0x8128 ∧ decodeWord 0x8128 = .error (.unrecognized 0x8128) ∧
    (at_ 0xFFD).pc.toNat ≤ 0xFFD ∧ (word 0x8128 (at_ 0xFFE)).wordAtPc = some 0x8128 ∧ (at_ 0xFFE).pc = 0xFFE :=
  by decide

theorem witness_FetchAtTheLastAddress :
    (at_ 0xFFF).halted = false ∧ (at_ 0xFFF).pc = 0xFFF := by decide

theorem witness_HaltedCore :
    (faulted State.reset 4).halted = true := by decide

theorem witness_FaultingStep :
    (at_ 0xFFF).sp.toNat ≤ 16 ∧ State.reset.sp.toNat ≤ 16 ∧
    (at_ 0xFFF).halted = false ∧ (∃ t, step (at_ 0xFFF) = .next t) ∧ stepFault (at_ 0xFFF) = some .fetchRange ∧
    State.reset.halted = false ∧ (∃ t, step State.reset = .next t) ∧ stepFault State.reset = none :=
  ⟨by decide, by decide, by decide, ⟨_, rfl⟩, by decide, by decide, ⟨_, rfl⟩, by decide⟩

theorem witness_InstructionFaults :
    ownFault .ret State.reset = some .stackUnderflow ∧
    ownFault (.jpV0Nnn 0xFFF) (regs [(0, 1)]) = none ∧ pcOutOfRange (.jpV0Nnn 0xFFF) (regs [(0, 1)]) = true ∧
    ownFault (.call 0) (at_ 0xFFE) = none ∧ pcOutOfRange (.call 0) (at_ 0xFFE) = true := by decide

theorem witness_OwnFaultWins :
    (at_ 0xFFE).pc = 0xFFE ∧ ({ at_ 0xFFE with sp := 16 } : State).sp = 16 ∧
    (({ regs [(2, 0x20)] with pc := 0xFFE } : State).V 2).toNat = 0x20 ∧
    0xFFF < ({ regs [(2, 1)] with idx := 0xFFF } : State).idx.toNat + ((regs [(2, 1)]).V 2).toNat := by decide

/-- For the statements about a committing step: NextPcFollowsTheOutcomeTable, TimersCountDownOnEveryCommittedStep. -/
theorem witness_Commits :
    (∃ t, Commits (word 0x6005 State.reset) t) ∧ (word 0x6005 State.reset).nextInstr = some (.ldVxKk 0 5) ∧
    (∃ t, Commits (word 0x8128 State.reset) t) ∧ (word 0x8128 State.reset).nextInstr = none :=
  ⟨⟨_, by decide, rfl, rfl⟩, by decide, ⟨_, by decide, rfl, rfl⟩, by decide⟩

/-- For RedrawExactlyOnClearOrDraw, ToneExactlyWhileSoundTimerRuns and UnrecExactlyOnUnrecognizedWords. -/
theorem witness_CycleFlags :
    (after 0x00E0 State.reset).redraw = true ∧ (after 0xD000 State.reset).redraw = true ∧
    (after 0x6005 { State.reset with st := 2 }).tone = true ∧ (after 0x6005 { State.reset with st := 1 }).tone = false ∧
    (after 0x0000 State.reset).unrec = true ∧ (after 0x8128 State.reset).unrec = true ∧
    State.reset.halted = false ∧ ∃ t, step State.reset = .next t :=
  ⟨by decide, by decide, by decide, by decide, by decide, by decide, by decide, _, rfl⟩

theorem witness_TimersFaultingStep :
    (∃ t, step (at_ 0xFFF) = .next t ∧ t.halted = true) := ⟨_, rfl, rfl⟩

theorem witness_LoadedTimer :
    (∀ k, k < 2 → Commits (stepsTo k (word 0xF415 (regs [(4, 3)]))) (stepsTo (k + 1) (word 0xF415 (regs [(4, 3)])))) ∧
    (word 0xF415 (regs [(4, 3)])).nextInstr = some (.ldDtVx 4) ∧
    (stepsTo 1 (word 0xF415 (regs [(4, 3)]))).nextInstr = some (.sys 0) ∧
    (∀ k, k < 2 → Commits (stepsTo k (word 0xF418 (regs [(4, 3)]))) (stepsTo (k + 1) (word 0xF418 (regs [(4, 3)])))) ∧
    (word 0xF418 (regs [(4, 3)])).nextInstr = some (.ldStVx 4) ∧
    (stepsTo 1 (word 0xF418 (regs [(4, 3)]))).nextInstr = some (.sys 0) := by
  refine ⟨?_, by decide, by decide, ?_, by decide, by decide⟩
  · intro k hk
    obtain rfl | rfl : k = 0 ∨ k = 1 := by omega
    · exact ⟨by decide, rfl, by decide⟩
    · exact ⟨by decide, rfl, by decide⟩
  · intro k hk
    obtain rfl | rfl : k = 0 ∨ k = 1 := by omega
    · exact ⟨by decide, rfl, by decide⟩
    · exact ⟨by decide, rfl, by decide⟩

theorem witness_Mode :
    (faulted State.reset 4).mode = .halted ∧ (at_ 0xFFF).mode = .running ∧ (stepTo (at_ 0xFFF)).mode = .halted ∧
    State.reset.mode = .running ∧ (after 0xF30A (withKeys 4 State.reset)).mode = .awaitingKey ∧
    (waiting 4).mode = .awaitingKey ∧ (after 0xF30A (withKeys 0 (waiting 4))).mode = .running ∧
    (after 0xF30A (withKeys 4 (waiting 4))).mode = .awaitingKey := by decide

/-- A state that waits for a key meets the invariant. -/
theorem waiting_inv : (word 0xF30A (waiting 4)).Inv where
  spLe := by decide
  causeRunning := fun _ => by decide
  causeHalted := fun h => absurd h (by decide)
  latch := fun _ => ⟨0xF30A, 3, by decide, by decide⟩
  mem := by decide
  quietWhenHalted := fun h => absurd h (by decide)

/-- A state that a fault left meets the invariant. -/
theorem halted_inv : (stepTo (at_ 0xFFF)).Inv where
  spLe := by decide
  causeRunning := fun h => absurd h (by decide)
  causeHalted := fun _ => by decide
  latch := fun h => absurd h (by decide)
  mem := by decide
  quietWhenHalted := fun _ => by decide

theorem witness_StepKeepsTheStateInvariant :
    (word 0xF30A (waiting 4)).Inv ∧ (∃ t, step (word 0xF30A (waiting 4)) = .next t) ∧
    (stepTo (at_ 0xFFF)).Inv ∧ (∃ t, step (stepTo (at_ 0xFFF)) = .next t) :=
  ⟨waiting_inv, ⟨_, rfl⟩, halted_inv, ⟨_, rfl⟩⟩

theorem witness_EvenTargets :
    (∃ t, Commits (word 0x2ABC State.reset) t) ∧ (word 0x2ABC State.reset).pc.toNat % 2 = 0 ∧
    (word 0x2ABC State.reset).nextInstr = some (.call 0xABC) ∧ (0xABC : Addr).toNat % 2 = 0 ∧
    (∃ t, Commits (word 0xB300 State.reset) t) ∧ (word 0xB300 State.reset).nextInstr = some (.jpV0Nnn 0x300) ∧
    (0x300 + ((word 0xB300 State.reset).V 0).toNat) % 2 = 0 ∧
    (∃ t, Commits (word 0x00EE called) t) ∧ (word 0x00EE called).nextInstr = some .ret ∧
    ((word 0x00EE called).stackRead ((word 0x00EE called).sp - 1)).toNat % 2 = 0 :=
  ⟨⟨_, by decide, rfl, rfl⟩, by decide, by decide, by decide, ⟨_, by decide, rfl, rfl⟩, by decide, by decide,
      ⟨_, by decide, rfl, rfl⟩, by decide, by decide⟩

theorem witness_RegistersChange :
    (∃ t, step (word 0x6005 State.reset) = .next t ∧ t.V 0 ≠ (word 0x6005 State.reset).V 0) ∧
    (∃ t, step (word 0x8344 (regs [(3, 255), (4, 1)])) = .next t ∧
      t.V 15 ≠ (word 0x8344 (regs [(3, 255), (4, 1)])).V 15) := ⟨⟨_, rfl, by decide⟩, ⟨_, rfl, by decide⟩⟩

theorem witness_MemoryChanges :
    (∃ t, step (word 0xF033 (regs [(0, 255)])) = .next t ∧ t.readByte 2 ≠ (word 0xF033 (regs [(0, 255)])).readByte 2) ∧
    (∃ t, step (word 0xF055 (regs [(0, 255)])) = .next t ∧ t.readByte 0 ≠ (word 0xF055 (regs [(0, 255)])).readByte 0) :=
  ⟨⟨_, rfl, by decide⟩, ⟨_, rfl, by decide⟩⟩

theorem witness_StackChanges :
    State.reset.sp.toNat ≤ 16 ∧ ({ State.reset with sp := 16 } : State).sp.toNat ≤ 16 ∧
    (∃ t, step (word 0x2300 { State.reset with sp := 15 }) = .next t ∧ t.sp = 16) ∧
    (∃ t, step (word 0x00EE called) = .next t ∧ t.sp = 0) ∧
    (∃ t, step (word 0x2300 { State.reset with sp := 16 }) = .next t ∧ t.sp = 16) :=
  ⟨by decide, by decide, ⟨_, rfl, by decide⟩, ⟨_, rfl, by decide⟩, ⟨_, rfl, by decide⟩⟩

theorem witness_IndexFramebufferAndLatch :
    (∃ t, step (word 0xA2F0 State.reset) = .next t ∧ t.idx ≠ (word 0xA2F0 State.reset).idx) ∧
    (∃ t, step (word 0xD015 State.reset) = .next t ∧ t.fb ≠ (word 0xD015 State.reset).fb) ∧
    (∃ t, step (word 0xF30A State.reset) = .next t ∧ t.kwActive ≠ (word 0xF30A State.reset).kwActive) :=
  ⟨⟨_, rfl, by decide⟩, ⟨_, rfl, by decide⟩, ⟨_, rfl, by decide⟩⟩

theorem witness_InputsRead :
    ((⟨1, 7⟩ : StepInput).rnd = (⟨2, 7⟩ : StepInput).rnd ∧ ∀ x,
      (word 0xC30F State.reset).nextInstr ≠ some (.skpVx x) ∧ (word 0xC30F State.reset).nextInstr ≠ some (.sknpVx x) ∧
        (word 0xC30F State.reset).nextInstr ≠ some (.ldVxK x)) ∧
    ((⟨1, 7⟩ : StepInput).keys = (⟨1, 8⟩ : StepInput).keys ∧
      ∀ x kk, (word 0xE29E State.reset).nextInstr ≠ some (.rndVxKk x kk)) := by
  have h : (word 0xC30F State.reset).nextInstr = some (.rndVxKk 3 0x0F) := by decide
  have h' : (word 0xE29E State.reset).nextInstr = some (.skpVx 2) := by decide
  rw [h, h']
  exact ⟨⟨rfl, fun _ => by simp⟩, rfl, fun _ _ => by simp⟩

theorem witness_EachStepTakesOneSample :
    ({ at_ 0xFFF with inputs := [⟨4, 1⟩, ⟨8, 2⟩] } : State).halted = false ∧
    (∃ t, step { at_ 0xFFF with inputs := [⟨4, 1⟩, ⟨8, 2⟩] } = .next t) ∧
    ({ at_ 0xFFF with inputs := [⟨4, 1⟩, ⟨8, 2⟩] } : State).inputs = ⟨4, 1⟩ :: ⟨8, 2⟩ :: [] ∧
    (stepTo { at_ 0xFFF with inputs := [⟨4, 1⟩, ⟨8, 2⟩] }).halted = true :=
  ⟨by decide, ⟨_, rfl⟩, by decide, by decide⟩

/-- The hypotheses of `CompletesNext2`, for every statement that uses it. -/
theorem witness_CompletesNext2 :
    (at_ 0xFFD).pc.toNat + 2 ≤ 0xFFF ∧ (at_ 0).pc.toNat + 2 ≤ 0xFFF ∧ 0xFFF < (at_ 0xFFE).pc.toNat + 2 ∧
    0xFFF < (at_ 0xFFF).pc.toNat + 2 := by decide

/-- The hypotheses of `CompletesSkip`, for SkipsCompareAndSkip. -/
theorem witness_CompletesSkip :
    (at_ 0xFFB).pc.toNat + 4 ≤ 0xFFF ∧ 0xFFF < (at_ 0xFFC).pc.toNat + 4 ∧ (at_ 0xFFD).pc.toNat + 2 ≤ 0xFFF ∧
    0xFFF < (at_ 0xFFE).pc.toNat + 2 ∧ (at_ 0xFFB).V 3 = 0 ∧ ¬(at_ 0xFFC).V 3 = 1 ∧ (at_ 0xFFC).V 3 = (at_ 0xFFC).V 4 ∧
    ¬(regs [(3, 1)]).V 3 = (regs [(3, 1)]).V 4 := by decide

theorem witness_Ret :
    State.reset.sp.toNat ≤ 16 ∧ State.reset.sp = 0 ∧ 0 < called.sp.toNat ∧ called.sp.toNat - 1 < 16 ∧
    0 < (({ State.reset with sp := 16 } : State).sp.toNat) ∧ ({ State.reset with sp := 16 } : State).sp.toNat - 1 < 16 :=
  by decide

theorem witness_Call :
    ({ State.reset with sp := 16 } : State).sp = 16 ∧ (at_ 0xFFE).sp.toNat < 16 ∧ 0xFFF < (at_ 0xFFE).pc.toNat + 2 ∧
    ({ at_ 0xFFD with sp := 15 } : State).sp.toNat < 16 ∧ (at_ 0xFFD).pc.toNat + 2 ≤ 0xFFF := by decide

theorem witness_RetAfterCall :
    ∃ t, ({ at_ 0xFFD with sp := 15 } : State).sp.toNat < 16 ∧ (at_ 0xFFD).pc.toNat ≤ 0xFFD ∧
    exec (.call 0x300) { at_ 0xFFD with sp := 15 } = .next t ∧ t.sp = t.sp ∧ t.stack = t.stack :=
  ⟨_, by decide, by decide, rfl, rfl, rfl⟩

theorem witness_JpV0 :
    0xF00 + ((regs [(0, 0xFF)]).V 0).toNat ≤ 0xFFF ∧ 0xFFF < 0xF01 + ((regs [(0, 0xFF)]).V 0).toNat := by decide

theorem witness_Rnd :
    ({ State.reset with inputs := [⟨0, 0xA7⟩] } : State).inputs = ⟨0, 0xA7⟩ :: [] := by decide

theorem witness_AddI :
    0xF01 + ((regs [(2, 0xFE)]).V 2).toNat ≤ 0xFFF ∧ 0xFFF < 0xF02 + ((regs [(2, 0xFE)]).V 2).toNat ∧
    ({ regs [(2, 0xFE)] with idx := 0xF01 } : State).idx.toNat = 0xF01 := by decide

/-- For LdBStoresThreeDigits, LdMemStoresRegistersInOrder and LdRegsLoadsMemoryInOrder. -/
theorem witness_StoresAndLoads :
    ({ State.reset with idx := 0xFFD } : State).idx.toNat + 2 ≤ 0xFFF ∧
    0xFFF < ({ State.reset with idx := 0xFFE } : State).idx.toNat + 2 ∧
    ({ State.reset with idx := 0xFF0 } : State).idx.toNat + (15 : RegIx).toNat ≤ 0xFFF ∧
    0xFFF < ({ State.reset with idx := 0xFF1 } : State).idx.toNat + (15 : RegIx).toNat := by decide

theorem witness_StoredBytes :
    (word 0xF155 { State.reset with idx := 0x202 }).nextInstr = some (.ldMemVx 1) ∧
    (word 0xF155 { State.reset with idx := 0x202 }).idx.toNat = (word 0xF155 { State.reset with idx := 0x202 }).pc.toNat + 2 ∧
    (word 0xF155 { State.reset with idx := 0x202 }).pc.toNat + 3 ≤ 0xFFF := by decide

theorem witness_Drw :
    (1 ≤ (2 : Nibble).toNat ∧ 0xFFF < 0xFFF + (2 : Nibble).toNat - 1) ∧ 0xFFF + (1 : Nibble).toNat - 1 ≤ 0xFFF ∧
    ¬ 1 ≤ (0 : Nibble).toNat ∧ spriteCovers State.reset 0 0 1 0 3 ∧
    State.FB { State.reset with fb := togglePixel State.reset.fb 0 3 } 0 3 = true ∧ State.reset.FB 0 3 = false :=
  ⟨by decide, by decide, by decide, ⟨0, 3, by decide, by decide, by decide, by decide, by decide⟩, by decide, by decide⟩

theorem witness_DrawingTwice :
    ∃ t u, exec (.drwVxVyN 0 1 5) State.reset = .next t ∧ t.halted = false ∧
    exec (.drwVxVyN 0 1 5) { t with pc := State.reset.pc } = .next u ∧ t.V 15 = 0 ∧
    spriteCovers State.reset 0 1 5 0 0 :=
  ⟨_, _, rfl, rfl, rfl, by decide, ⟨0, 0, by decide, by decide, by decide, by decide, by decide⟩⟩

theorem witness_KeySkips :
    15 < ((regs [(2, 16)]).V 2).toNat ∧ ((regs [(2, 15)]).V 2).toNat ≤ 15 ∧
    (withKeys 0x8000 (regs [(2, 15)])).keys.getLsbD 15 = true ∧ (withKeys 0 (regs [(2, 15)])).keys.getLsbD 15 = false ∧
    (withKeys 0 (regs [(2, 15)])).inputs = ⟨0, 0⟩ :: [] := by decide

theorem witness_WaitForKey :
    State.reset.kwActive = false ∧ (waiting 4).kwActive = true ∧ (withKeys 4 (waiting 4)).keys = (waiting 4).kwSnap ∧
    (withKeys 0x8000 (waiting 0)).keys.getLsbD (15 : RegIx).toNat ≠ (waiting 0).kwSnap.getLsbD (15 : RegIx).toNat ∧
    (∀ j : RegIx, j.toNat < (15 : RegIx).toNat →
      (withKeys 0x8000 (waiting 0)).keys.getLsbD j.toNat = (waiting 0).kwSnap.getLsbD j.toNat) := by decide

theorem witness_WaitingSteps :
    ∃ s : State, s.nextInstr = some (.ldVxK 3) ∧ s.kwActive = true ∧ s.inputs = [⟨4, 0⟩, ⟨4, 9⟩] ++ [⟨0, 0⟩] ∧
    ([⟨4, 0⟩, ⟨4, 9⟩] : List StepInput) ≠ [] ∧ ∀ a ∈ ([⟨4, 0⟩, ⟨4, 9⟩] : List StepInput), a.keys = s.kwSnap :=
  ⟨{ word 0xF30A (waiting 4) with inputs := [⟨4, 0⟩, ⟨4, 9⟩, ⟨0, 0⟩] }, by decide, by decide, by decide, by decide,
    by decide⟩

theorem witness_TimerInstructions :
    (word 0xF407 (at_ 0xFFD)).pc.toNat ≤ 0xFFD ∧ (word 0xF407 (at_ 0xFFD)).nextInstr = some (.ldVxDt 4) ∧
    (word 0xF415 (at_ 0xFFD)).nextInstr = some (.ldDtVx 4) ∧ (word 0xF418 (at_ 0xFFD)).nextInstr = some (.ldStVx 4) :=
  by decide

theorem witness_Load :
    ([] : List Byte).length ≤ 3584 ∧ (List.replicate 3584 (1 : Byte)).length ≤ 3584 ∧
    3584 < (List.replicate 3585 (1 : Byte)).length := by
  simp only [List.length_replicate, List.length_nil]; decide

theorem witness_PlacedWord :
    (at_ 0xFFE).pc.toNat ≤ 0xFFE ∧ State.reset.pc.toNat ≤ 0xFFE ∧ (0xFFD : Nat) ≠ (at_ 0xFFE).pc.toNat := by decide

end Sys2Proof.Tests
end

/-! PROOFS. Family 10_state: the invariant of R31, the per-cycle flags, and which instructions write which state. -/

namespace Sys2Proof.Machine

/-! ### What a step does to the data state -/

theorem ownFault_of_instrFault_none {i : Instr} {s : State} (h : instrFault i s = none) : ownFault i s = none := by
  unfold instrFault at h
  split at h
  · cases h
  · assumption

theorem committed_of_nextInstr {s : State} {i : Instr} (h : s.nextInstr = some i) :
    committed s = { effect i s.clearCycleFlags with pc := BitVec.ofNat 12 (nextPc i s) } := by
  unfold committed; rw [h]

theorem committed_of_nextInstr_none {s : State} (h : s.nextInstr = none) :
    committed s =
      { s with redraw := false, tone := false, unrec := true, pc := BitVec.ofNat 12 (s.pc.toNat + 2) } := by
  unfold committed; rw [h]

/-- The state that only instructions write: all but the pc, the timers, the fault state, the per-cycle flags and the
environment's inputs. -/
structure SameData (s t : State) : Prop where
  regs : t.regs = s.regs
  idx : t.idx = s.idx
  sp : t.sp = s.sp
  stack : t.stack = s.stack
  mem : t.mem = s.mem
  fb : t.fb = s.fb
  kwActive : t.kwActive = s.kwActive
  kwSnap : t.kwSnap = s.kwSnap
  font : t.font = s.font

theorem SameData.V {s t : State} (h : SameData s t) (k : RegIx) : t.V k = s.V k := by
  unfold State.V; simp only [h.regs]

theorem SameData.readByte {s t : State} (h : SameData s t) (a : Nat) : t.readByte a = s.readByte a := by
  unfold State.readByte; rw [h.mem, h.font]

/-- A step leaves the data state alone, or executes an instruction without fault and gives it that instruction's
writes. -/
theorem step_data {s t : State} (h : step s = .next t) :
    (SameData s t ∧ (t.halted = true ∨ s.nextInstr = none)) ∨
    ∃ i, s.nextInstr = some i ∧ ownFault i s = none ∧ t.halted = false ∧
      SameData (effect i s.clearCycleFlags) t ∧ t.pc = BitVec.ofNat 12 (nextPc i s) := by
  rcases step_cases h with ⟨hs, rfl⟩ | ⟨-, f, -, rfl⟩ | ⟨hs, hf, rfl⟩
  · exact .inl ⟨⟨rfl, rfl, rfl, rfl, rfl, rfl, rfl, rfl, rfl⟩, .inl hs⟩
  · exact .inl ⟨⟨rfl, rfl, rfl, rfl, rfl, rfl, rfl, rfl, rfl⟩, .inl rfl⟩
  · have hr := committed_halted hs
    cases hi : s.nextInstr with
    | none =>
      rw [committed_of_nextInstr_none hi]
      exact .inl ⟨⟨rfl, rfl, rfl, rfl, rfl, rfl, rfl, rfl, rfl⟩, .inr rfl⟩
    | some i =>
      rw [stepFault_of_nextInstr hi] at hf
      rw [committed_of_nextInstr hi] at hr ⊢
      exact .inr ⟨i, rfl, ownFault_of_instrFault_none hf, hr, ⟨rfl, rfl, rfl, rfl, rfl, rfl, rfl, rfl, rfl⟩, rfl⟩

/-! ### The invariant of R31 -/

theorem wordAtPc_congr {s t : State} (hpc : t.pc = s.pc) (hmem : t.mem = s.mem) (hfont : t.font = s.font) :
    t.wordAtPc = s.wordAtPc := by
  unfold State.wordAtPc State.readByte; rw [hpc, hmem, hfont]

/-- Under the invariant an active latch means that the next instruction is an LD Vx, K (R31). -/
theorem nextInstr_of_latch {s : State} (h : s.Inv) (hr : s.halted = false) (hk : s.kwActive = true) :
    ∃ x, s.nextInstr = some (.ldVxK x) := by
  obtain ⟨w, x, hw, hd⟩ := h.latch hk
  exact ⟨x, by simp [State.nextInstr, hr, hw, hd, Except.toOption]⟩

theorem ownFault_ret_eq_none_iff (s : State) : ownFault .ret s = none ↔ s.sp ≠ 0 := by
  simp [ownFault]

theorem ownFault_call_eq_none_iff (nnn : Addr) (s : State) : ownFault (.call nnn) s = none ↔ s.sp.toNat < 16 := by
  simp [ownFault]

/-- RET pops only a stack that is not empty, and CALL pushes only on one that is not full (R18). -/
theorem effect_sp_le {i : Instr} {s : State} (hf : ownFault i s = none) (h : s.sp.toNat ≤ 16) :
    (effect i s).sp.toNat ≤ 16 := by
  rcases effect_callStack i s with ⟨hsp, -⟩ | rfl | ⟨nnn, rfl⟩
  · rwa [hsp]
  · rw [ownFault_ret_eq_none_iff] at hf
    change (s.sp - 1).toNat ≤ 16
    bv_omega
  · rw [ownFault_call_eq_none_iff] at hf
    change (s.sp + 1).toNat ≤ 16
    bv_omega

theorem effect_keeps_memWf (i : Instr) {s : State} (h : s.memWf) : (effect i s).memWf := by
  rcases effect_mem i s with hmem | ⟨x, rfl⟩ | ⟨x, rfl⟩
  · unfold State.memWf; rwa [hmem, effect_font]
  · exact State.writeBytes_keeps_memWf _ s _ h
  · exact State.writeBytes_keeps_memWf _ s _ h

/-- An LD Vx, K that leaves the latch active does not advance (R183). -/
theorem nextPc_of_waiting {x : RegIx} {s : State} (h : (effect (.ldVxK x) s).kwActive = true) :
    nextPc (.ldVxK x) s = s.pc.toNat := by
  simp only [nextPc]
  by_cases hk : s.kwActive = true ∧ s.keys ≠ s.kwSnap
  · have hd : firstSetBit (s.keys ^^^ s.kwSnap) ≠ none := by
      rw [Ne, firstSetBit_eq_none_iff, BitVec.xor_eq_zero_iff]; exact hk.2
    obtain ⟨k, hsome⟩ := Option.ne_none_iff_exists'.mp hd
    simp [effect, hk.1, hsome] at h
  · rw [if_neg hk]

/-- An instruction after which the latch is active is the LD Vx, K at `pc`. -/
theorem committed_latch {s : State} (h : s.Inv) (hr : s.halted = false) (hk : (committed s).kwActive = true) :
    ∃ x, s.nextInstr = some (.ldVxK x) := by
  cases hi : s.nextInstr with
  | none =>
    rw [committed_of_nextInstr_none hi] at hk
    obtain ⟨x, hx⟩ := nextInstr_of_latch h hr hk
    rw [hi] at hx; cases hx
  | some i =>
    rw [committed_of_nextInstr hi] at hk
    rcases effect_latch i s.clearCycleFlags with ⟨hact, -⟩ | ⟨x, rfl⟩
    · obtain ⟨x, hx⟩ := nextInstr_of_latch h hr (hact.symm.trans hk)
      exact ⟨x, hi.symm.trans hx⟩
    · exact ⟨x, rfl⟩

/-- A core that waits after a step fetches the same word again. -/
theorem committed_wordAtPc_of_waiting {s : State} {x : RegIx} (hi : s.nextInstr = some (.ldVxK x))
    (hk : (committed s).kwActive = true) : (committed s).wordAtPc = s.wordAtPc := by
  rw [committed_of_nextInstr hi] at hk ⊢
  have hpc := nextPc_of_waiting hk
  rw [nextPc_clearCycleFlags] at hpc
  refine wordAtPc_congr ?_ ?_ (effect_font _ s.clearCycleFlags)
  · simp [hpc]
  · obtain hmem | ⟨_, hx⟩ | ⟨_, hx⟩ := effect_mem (.ldVxK x) s.clearCycleFlags
    · exact hmem
    · cases hx
    · cases hx

theorem causeCode_ne_zero (f : CoreFault) : causeCode f ≠ 0 := by
  cases f <;> decide

theorem faultedStep_inv {s : State} (h : s.Inv) (f : CoreFault) : (faultedStep s (causeCode f)).Inv where
  spLe := h.spLe
  causeRunning := nofun
  causeHalted := fun _ => causeCode_ne_zero f
  latch := h.latch
  mem := h.mem
  quietWhenHalted := fun _ => ⟨rfl, rfl, rfl⟩

theorem committed_sp_le {s : State} (h : s.Inv) (hf : stepFault s = none) : (committed s).sp.toNat ≤ 16 := by
  cases hi : s.nextInstr with
  | none => rw [committed_of_nextInstr_none hi]; exact h.spLe
  | some i =>
    rw [committed_of_nextInstr hi]
    rw [stepFault_of_nextInstr hi, ← instrFault_clearCycleFlags] at hf
    exact effect_sp_le (ownFault_of_instrFault_none hf) h.spLe

theorem committed_cause (s : State) : (committed s).cause = s.cause := by
  unfold committed
  split
  · exact effect_cause _ s.clearCycleFlags
  · rfl

theorem committed_keeps_memWf {s : State} (h : s.memWf) : (committed s).memWf := by
  unfold committed
  split
  · exact effect_keeps_memWf _ (s := s.clearCycleFlags) h
  · exact h

theorem committedStep_inv {s : State} (h : s.Inv) (hr : s.halted = false) (hf : stepFault s = none) :
    (committed s).tickTimers.consumeInput.Inv where
  spLe := committed_sp_le h hf
  causeRunning := fun _ => (committed_cause s).trans (h.causeRunning hr)
  causeHalted := fun ht => absurd ((committed_halted hr).symm.trans ht) Bool.false_ne_true
  latch := fun hk => by
    obtain ⟨x, hi⟩ := committed_latch h hr hk
    obtain ⟨-, w, hw, hd⟩ := nextInstr_word hi
    exact ⟨w, x, (committed_wordAtPc_of_waiting hi hk).trans hw, hd⟩
  mem := committed_keeps_memWf h.mem
  quietWhenHalted := fun ht => absurd ((committed_halted hr).symm.trans ht) Bool.false_ne_true

theorem step_keeps_inv {s t : State} (h : s.Inv) (hs : step s = .next t) : t.Inv := by
  rcases step_cases hs with ⟨-, rfl⟩ | ⟨-, f, -, rfl⟩ | ⟨hr, hf, rfl⟩
  · exact h
  · exact faultedStep_inv h f
  · exact committedStep_inv h hr hf

/-- Settles O23: a halted core stays as it is, a fault writes nothing the invariant speaks of but `halted` and
`cause`, and a committed step keeps each part of it. -/
theorem stepKeepsTheStateInvariant : Obligations.StepKeepsTheStateInvariant :=
  fun _ _ => step_keeps_inv

/-! ### Reset and runs from reset -/

/-- The environment's inputs and their count are no part of the invariant. -/
theorem resetWith_inv (font : Font) (inputs : List StepInput) (tick : Nat) :
    State.Inv { State.resetWith font with inputs := inputs, tick := tick } where
  spLe := Nat.zero_le _
  causeRunning := fun _ => rfl
  causeHalted := nofun
  latch := nofun
  mem := rfl
  quietWhenHalted := nofun

/-- Settles O24: the three reset states differ in the glyph table and the environment's inputs only. -/
theorem resetMeetsTheStateInvariant : Obligations.ResetMeetsTheStateInvariant :=
  ⟨resetWith_inv _ [] 0, fun font => resetWith_inv font [] 0, fun s => resetWith_inv s.font s.inputs s.tick⟩

/-- The load writes nothing but memory, which stays canonical. -/
theorem load_eq_withMem (s : State) (program : List Byte) (h : s.memWf) :
    ∃ m, (s.load program).state = { s with mem := m } ∧ Memory.wf s.font m = true := by
  unfold State.load
  split
  · exact ⟨s.mem, rfl, h⟩
  · have hwf := State.writeBytes_keeps_memWf program s Config.entry.toNat h
    rw [State.writeBytes_eq_withMem] at hwf ⊢
    exact ⟨_, rfl, hwf⟩

/-- The latch is inactive after reset, so no word that a load places can break the invariant. -/
theorem boot_inv (font : Font) (program : List Byte) (inputs : List StepInput) :
    State.Inv { (boot font program).state with inputs := inputs } := by
  obtain ⟨m, hm, hwf⟩ := load_eq_withMem (State.resetWith font) program rfl
  unfold boot
  rw [hm]
  exact { resetWith_inv font inputs 0 with latch := nofun, mem := hwf }

theorem stepTo_keeps_inv {s : State} (h : s.Inv) : (stepTo s).Inv := by
  unfold stepTo
  split
  · next hs => exact step_keeps_inv h hs
  · exact h
  · exact h

theorem stepsTo_keeps_inv (n : Nat) : ∀ {s : State}, s.Inv → (stepsTo n s).Inv := by
  induction n with
  | zero => exact id
  | succ n ih => exact fun h => ih (stepTo_keeps_inv h)

/-- Settles O25, by induction on the number of steps from the state after the load. -/
theorem everyRunKeepsTheStateInvariant : Obligations.EveryRunKeepsTheStateInvariant :=
  fun font program inputs n => stepsTo_keeps_inv n (boot_inv font program inputs)

theorem resetWith_atReset (font : Font) (inputs : List StepInput) (tick : Nat) :
    AtReset { State.resetWith font with inputs := inputs, tick := tick } font where
  regs x := Vector.getElem_replicate x.isLt
  idx := rfl
  pc := rfl
  sp := rfl
  stack _ h := Vector.getElem_replicate h
  timers := ⟨rfl, rfl⟩
  glyphs _ h := dif_pos h
  memory _ h _ := dif_neg (Nat.not_lt.mpr h)
  fb := pixel_zero
  latch := ⟨rfl, rfl⟩
  fault := ⟨rfl, rfl⟩
  flags := ⟨rfl, rfl, rfl⟩

/-- Settles O56: the three reset states differ in the glyph table and the environment's inputs only. -/
theorem resetPutsEveryFieldAtItsValue : Obligations.ResetPutsEveryFieldAtItsValue :=
  ⟨fun font => resetWith_atReset font [] 0, fun s => resetWith_atReset s.font s.inputs s.tick,
    resetWith_atReset Config.defaultFont [] 0⟩

/-- Settles O57, by reading the sixteen rows of the default table. -/
theorem defaultGlyphRowsAreTheTable : Obligations.DefaultGlyphRowsAreTheTable := by
  unfold Obligations.DefaultGlyphRowsAreTheTable
  decide

/-! ### The per-cycle flags and the fetch fault -/

/-- CLS and DRW set `redraw` (R26); SYS and an unrecognized word set `unrec` (R28). -/
theorem committed_cycleFlags (s : State) :
    ((committed s).redraw = true ↔
      s.nextInstr = some .cls ∨ ∃ x y n, s.nextInstr = some (.drwVxVyN x y n)) ∧
    ((committed s).unrec = true ↔ s.nextInstr = none ∨ ∃ nnn, s.nextInstr = some (.sys nnn)) := by
  cases hi : s.nextInstr with
  | none => simp [committed_of_nextInstr_none hi]
  | some i =>
    obtain ⟨hredraw, hunrec⟩ := effect_cycleFlags i s.clearCycleFlags
    rw [committed_of_nextInstr hi]
    simpa using And.intro hredraw hunrec

@[simp] theorem faultedStep_halted (s : State) (code : BitVec 3) : (faultedStep s code).halted = true := rfl

/-- A per-cycle flag that a fault clears, and that a committed step sets exactly when `P` holds, is 1 after a step
exactly when the step committed and `P` holds. -/
theorem cycleFlag_iff {s t : State} {flag : State → Bool} {P : Prop} (hs : s.halted = false) (h : step s = .next t)
    (hfault : ∀ code, flag (faultedStep s code) = false)
    (hcommit : flag (committed s).tickTimers.consumeInput = true ↔ P) :
    flag t = true ↔ t.halted = false ∧ P := by
  rcases step_cases h with ⟨hh, -⟩ | ⟨-, f, -, rfl⟩ | ⟨-, -, rfl⟩
  · rw [hs] at hh; cases hh
  · exact iff_of_false (by simp [hfault]) (by simp)
  · simp [hcommit, committed_halted hs]

/-- Settles O17: the timers at the end of a step leave `redraw` as the instruction set it. -/
theorem redrawExactlyOnClearOrDraw : Obligations.RedrawExactlyOnClearOrDraw :=
  fun s _ hs h => cycleFlag_iff (flag := State.redraw) hs h (fun _ => rfl) (committed_cycleFlags s).1

/-- Settles O19: the timers at the end of a step leave `unrec` as the instruction set it. -/
theorem unrecExactlyOnUnrecognizedWords : Obligations.UnrecExactlyOnUnrecognizedWords :=
  fun s _ hs h => cycleFlag_iff (flag := State.unrec) hs h (fun _ => rfl) (committed_cycleFlags s).2

/-- Settles O18: the end of a committed step sets `tone` from the value it leaves in ST. -/
theorem toneExactlyWhileSoundTimerRuns : Obligations.ToneExactlyWhileSoundTimerRuns := by
  intro s t hs h
  rcases step_cases h with ⟨hh, -⟩ | ⟨-, f, -, rfl⟩ | ⟨-, -, rfl⟩
  · rw [hs] at hh; cases hh
  · exact iff_of_false Bool.false_ne_true (by simp)
  · simp [committed_halted hs]

/-- Settles O10: there is no word at 0xFFF, and FetchRange is the first fault of R205. -/
theorem fetchAtTheLastAddressFaults : Obligations.FetchAtTheLastAddressFaults := by
  intro s hs hpc
  have hf : stepFault s = some .fetchRange := by simp [stepFault, State.wordAtPc, hpc]
  rw [step_running hs, hf]
  rfl

/-! ### The evenness of the pc -/

theorem State.stackRead_stackWrite_same (s : State) (p : BitVec 5) (a : Addr) :
    (s.stackWrite p a).stackRead p = a :=
  Vector.getElem_set_self _

/-- An instruction other than RET, JP, CALL and JP V0 stays or goes 2 or 4 on (R85). -/
theorem nextPc_sequential_or_target (i : Instr) (s : State) :
    (nextPc i s = s.pc.toNat ∨ nextPc i s = s.pc.toNat + 2 ∨ nextPc i s = s.pc.toNat + 4) ∨
    i = .ret ∨ (∃ nnn, i = .jp nnn ∨ i = .call nnn) ∨ ∃ nnn, i = .jpV0Nnn nnn := by
  cases i with
  | ret | jp | call | jpV0Nnn => right; simp
  | seVxKk | sneVxKk | seVxVy | sneVxVy | skpVx | sknpVx | ldVxK => left; simp only [nextPc]; split <;> simp
  | _ => exact .inl (.inr (.inl rfl))

theorem nextPc_even {i : Instr} {s : State} (hpc : s.pc.toNat % 2 = 0)
    (htarget : ∀ nnn, i = .jp nnn ∨ i = .call nnn → nnn.toNat % 2 = 0)
    (hoffset : ∀ nnn, i = .jpV0Nnn nnn → (nnn.toNat + (s.V 0).toNat) % 2 = 0)
    (hret : i = .ret → (s.stackRead (s.sp - 1)).toNat % 2 = 0) : nextPc i s % 2 = 0 := by
  rcases nextPc_sequential_or_target i s with hseq | rfl | ⟨nnn, rfl | rfl⟩ | ⟨nnn, rfl⟩
  · omega
  · exact hret rfl
  · exact htarget nnn (.inl rfl)
  · exact htarget nnn (.inr rfl)
  · exact hoffset nnn rfl

/-- An even number cut to 12 bits is even. -/
theorem ofNat_pc_even {n : Nat} (h : n % 2 = 0) : (BitVec.ofNat 12 n).toNat % 2 = 0 := by
  rw [BitVec.toNat_ofNat]; omega

/-- Settles O26: the next pc and the address a CALL pushes are even before they are cut to 12 bits. -/
theorem evenTargetsKeepThePcEven : Obligations.EvenTargetsKeepThePcEven := by
  rintro s t ⟨-, hs, hr⟩ hpc htarget hoffset hret
  obtain ⟨-, -, rfl⟩ := committed_of_running hs hr
  cases hi : s.nextInstr with
  | none =>
    rw [committed_of_nextInstr_none hi]
    exact ⟨ofNat_pc_even (by omega), nofun⟩
  | some i =>
    rw [committed_of_nextInstr hi]
    simp only [hi, Option.some.injEq] at htarget hoffset hret
    refine ⟨ofNat_pc_even (nextPc_even hpc htarget hoffset hret), fun nnn hcall => ?_⟩
    cases hcall
    have hpush : (s.stackWrite s.sp (s.pc + 2)).stackRead s.sp = s.pc + 2 :=
      State.stackRead_stackWrite_same s s.sp (s.pc + 2)
    change ((s.stackWrite s.sp (s.pc + 2)).stackRead s.sp).toNat % 2 = 0
    rw [hpush]
    bv_omega

/-! ### What only some instructions change -/

/-- Settles O27: a register that differs was changed by the writes of the executed instruction. -/
theorem registersChangeOnlyByTheirWriters : Obligations.RegistersChangeOnlyByTheirWriters := by
  intro s t k hs hne
  rcases step_data hs with ⟨hsame, -⟩ | ⟨i, hi, -, -, hdata, -⟩
  · exact absurd (hsame.V k) hne
  · refine ⟨i, hi, (effect_V i s.clearCycleFlags k).resolve_left fun hk => ?_⟩
    exact hne ((hdata.V k).trans hk)

/-- A byte that a store changes is one of those it stores to. -/
theorem mem_range_of_writeBytes_ne {s : State} {a k : Nat} {bs : List Byte}
    (h : (s.writeBytes a bs).readByte k ≠ s.readByte k) : a ≤ k ∧ k < a + bs.length := by
  by_contra hout
  exact h (State.readByte_writeBytes_outside bs s a k (by omega))

/-- Settles O28: a byte that differs was changed by one of the two stores, inside its range. -/
theorem memoryChangesOnlyByStores : Obligations.MemoryChangesOnlyByStores := by
  intro s t a hs hne
  rcases step_data hs with ⟨hsame, -⟩ | ⟨i, hi, -, -, hdata, -⟩
  · exact absurd (hsame.readByte a) hne
  · rw [hdata.readByte] at hne
    rcases effect_mem i s.clearCycleFlags with hmem | ⟨x, rfl⟩ | ⟨x, rfl⟩
    · refine absurd ?_ hne
      unfold State.readByte
      rw [hmem, effect_font]
      rfl
    · obtain ⟨hlo, hhi⟩ := mem_range_of_writeBytes_ne (s := s.clearCycleFlags) hne
      exact .inl ⟨x, hi, hlo, Nat.le_of_lt_succ hhi⟩
    · obtain ⟨hlo, hhi⟩ := mem_range_of_writeBytes_ne (s := s.clearCycleFlags) hne
      rw [State.regsUpTo_length] at hhi
      exact .inr ⟨x, hi, hlo, Nat.le_of_lt_succ hhi⟩

/-- Settles O30: a field that differs was changed by the writes of the executed instruction. -/
theorem indexFramebufferAndLatchWriters : Obligations.IndexFramebufferAndLatchWriters := by
  intro s t hs
  rcases step_data hs with ⟨hsame, -⟩ | ⟨i, hi, -, -, hdata, -⟩
  · simp [hsame.idx, hsame.fb, hsame.kwActive, hsame.kwSnap, hsame.font]
  · simp only [hi, Option.some.injEq]
    refine ⟨fun hne => ?_, fun hne => ?_, fun hne => ?_, hdata.font.trans (effect_font i s.clearCycleFlags)⟩
    · exact (effect_idx i s.clearCycleFlags).resolve_left fun he => hne (hdata.idx.trans he)
    · exact (effect_fb i s.clearCycleFlags).resolve_left fun he => hne (hdata.fb.trans he)
    · refine (effect_latch i s.clearCycleFlags).resolve_left fun ⟨hact, hsnap⟩ => ?_
      exact hne.elim (· (hdata.kwActive.trans hact)) (· (hdata.kwSnap.trans hsnap))

/-- What a CALL without a fault of its own does to the call stack (R103). -/
theorem effect_call_callStack {nnn : Addr} {s : State} (h : s.sp.toNat < 16) :
    (effect (.call nnn) s).sp.toNat = s.sp.toNat + 1 ∧
    ∀ k (hk : k < 16), (effect (.call nnn) s).stack[k] = if k = s.sp.toNat then s.pc + 2 else s.stack[k] := by
  constructor
  · change (s.sp + 1).toNat = s.sp.toNat + 1
    bv_omega
  · intro k hk
    simp [effect, stackSlot_of_lt h, Vector.getElem_set, eq_comm]

/-- What a RET without a fault of its own does to the call stack, and the entry it goes to (R101). -/
theorem effect_ret_callStack {s : State} (h0 : s.sp ≠ 0) (h : s.sp.toNat ≤ 16) :
    (effect .ret s).sp.toNat + 1 = s.sp.toNat ∧ (effect .ret s).stack = s.stack ∧
    ∃ hlt : (effect .ret s).sp.toNat < 16, BitVec.ofNat 12 (nextPc .ret s) = s.stack[(effect .ret s).sp.toNat] := by
  have hsp : (effect .ret s).sp = s.sp - 1 := rfl
  have hlt : (s.sp - 1).toNat < 16 := by bv_omega
  simp only [hsp]
  refine ⟨by bv_omega, rfl, hlt, ?_⟩
  simp only [nextPc, State.stackRead, stackSlot_of_lt hlt, BitVec.ofNat_toNat, BitVec.setWidth_eq]

/-- Settles O29: by the instruction that the step commits, RET, CALL or another; a step that commits none makes no
access. -/
theorem stackChangesOnlyByCallAndRet : Obligations.StackChangesOnlyByCallAndRet := by
  intro s t hsp hs
  rcases step_data hs with ⟨hsame, hno⟩ | ⟨i, hi, hf, hr, hdata, hpc⟩
  · refine .inr (.inr ⟨hsame.sp, hsame.stack, fun hr => ?_⟩)
    have hnone : s.nextInstr = none := hno.resolve_left (by simp [hr])
    simp [hnone]
  · by_cases hret : i = .ret
    · subst hret
      rw [ownFault_ret_eq_none_iff] at hf
      have heff := effect_ret_callStack (s := s.clearCycleFlags) hf hsp
      rw [← hdata.sp, ← hdata.stack, nextPc_clearCycleFlags, ← hpc] at heff
      exact .inr (.inl ⟨hi, hr, heff⟩)
    by_cases hcall : ∃ nnn, i = .call nnn
    · obtain ⟨nnn, rfl⟩ := hcall
      rw [ownFault_call_eq_none_iff] at hf
      have heff := effect_call_callStack (nnn := nnn) (s := s.clearCycleFlags) hf
      rw [← hdata.sp, ← hdata.stack] at heff
      exact .inl ⟨⟨nnn, hi⟩, hr, heff⟩
    · obtain ⟨hsp', hstack⟩ := (effect_callStack i s.clearCycleFlags).resolve_right (not_or.mpr ⟨hret, hcall⟩)
      refine .inr (.inr ⟨hdata.sp.trans hsp', hdata.stack.trans hstack, fun _ => ?_⟩)
      rw [hi]
      simpa [hret] using hcall

end Sys2Proof.Machine

/-! PROOFS. Family 20_memory: the word that a fetch reads, and stores that the next fetch reads back. -/

namespace Sys2Proof.Machine

/-! ### The word at pc -/

/-- Joining two bytes is the big-endian number of R42. -/
theorem wordOfBytes_eq_ofNat (hi lo : Byte) : wordOfBytes hi lo = BitVec.ofNat 16 (hi.toNat * 256 + lo.toNat) := by
  apply BitVec.eq_of_toNat_eq
  have := hi.isLt
  have := lo.isLt
  simp only [wordOfBytes, BitVec.toNat_append, BitVec.toNat_ofNat]
  rw [← Nat.shiftLeft_add_eq_or_of_lt lo.isLt, Nat.shiftLeft_eq]
  omega

theorem wordAtPc_of_le {s : State} (h : s.pc.toNat ≤ 0xFFE) :
    s.wordAtPc = some (wordOfBytes (s.readByte s.pc.toNat) (s.readByte (s.pc.toNat + 1))) :=
  if_neg (Nat.not_lt.mpr h)

theorem wordAtPc_of_gt {s : State} (h : 0xFFE < s.pc.toNat) : s.wordAtPc = none := if_pos h

/-- Settles O7: the two bytes at pc, joined high byte first. -/
theorem fetchReadsTwoBytesBigEndian : Obligations.FetchReadsTwoBytesBigEndian := by
  intro s
  refine ⟨fun h => ?_, wordAtPc_of_gt⟩
  rw [wordAtPc_of_le h, wordOfBytes_eq_ofNat]

/-! ### Stores that the next fetch reads back -/

@[simp] theorem State.withFetchWord_pc (s : State) (nbits w : Nat) : (s.withFetchWord nbits w).pc = s.pc := by
  unfold State.withFetchWord
  rw [State.writeBytes_eq_withMem]

/-- The table's numbering of a 16-bit word drops no bit of it. -/
theorem tableWord_16 (w : Nat) : tableWord 16 w = BitVec.ofNat 16 w := by
  apply BitVec.eq_of_toNat_eq
  simp [tableWord]

/-- The placed word's high byte stands at pc and its low byte at pc + 1 (R42). -/
theorem readByte_withFetchWord (s : State) (nbits w : Nat) (h : s.pc.toNat ≤ 0xFFE) :
    (s.withFetchWord nbits w).readByte s.pc.toNat = (tableWord nbits w).extractLsb' 8 8 ∧
    (s.withFetchWord nbits w).readByte (s.pc.toNat + 1) = (tableWord nbits w).extractLsb' 0 8 := by
  have hread := State.readByte_writeBytes_inside (bytesOfWord (tableWord nbits w)) s s.pc.toNat
  have hlen : (bytesOfWord (tableWord nbits w)).length = 2 := rfl
  exact ⟨hread 0 (by omega) (by omega), hread 1 (by omega) (by omega)⟩

theorem wordAtPc_withFetchWord (s : State) (nbits w : Nat) (h : s.pc.toNat ≤ 0xFFE) :
    (s.withFetchWord nbits w).wordAtPc = some (tableWord nbits w) := by
  obtain ⟨hhi, hlo⟩ := readByte_withFetchWord s nbits w h
  rw [wordAtPc_of_le (by simpa using h), State.withFetchWord_pc, hhi, hlo, wordOfBytes_bytesOfWord]

/-- Settles O59: a placed word is a store of its two bytes at pc. -/
theorem placedWordIsTheNextFetched : Obligations.PlacedWordIsTheNextFetched := by
  intro s w h
  refine ⟨?_, ⟨_, State.writeBytes_eq_withMem _ s s.pc.toNat⟩, fun a hhi hlo => ?_⟩
  · rw [wordAtPc_withFetchWord s 16 w h, tableWord_16]
  · have hlen : (bytesOfWord (tableWord 16 w)).length = 2 := rfl
    exact State.readByte_writeBytes_outside _ s s.pc.toNat a (by omega)

/-- LD [I], Vx leaves V[k] at I + k for every k up to x (R154). -/
theorem readByte_effect_ldMemVx (s : State) {x k : RegIx} (hk : k.toNat ≤ x.toNat)
    (hrange : s.idx.toNat + x.toNat ≤ 0xFFF) :
    (effect (.ldMemVx x) s).readByte (s.idx.toNat + k.toNat) = s.V k := by
  have hlen := State.regsUpTo_length s x
  have hstored := State.readByte_writeBytes_inside (s.regsUpTo x) s s.idx.toNat k.toNat (by omega) (by omega)
  exact hstored.trans (State.regsUpTo_getElem s x k hk)

/-- LD [I], Vx faults only when its last byte or its next pc lies above 0xFFF (R205). -/
theorem instrFault_ldMemVx_eq_none {s : State} {x : RegIx} (hrange : s.idx.toNat + x.toNat ≤ 0xFFF)
    (hpc : s.pc.toNat + 2 ≤ 0xFFF) : instrFault (.ldMemVx x) s = none := by
  simp [instrFault, ownFault, pcOutOfRange, nextPc, Nat.not_lt.mpr hrange, Nat.not_lt.mpr hpc]

/-- The step of an instruction that meets no fault has that instruction's writes and its next pc. -/
theorem step_commits {s : State} {i : Instr} (hi : s.nextInstr = some i) (hf : instrFault i s = none) :
    ∃ t, step s = .next t ∧ SameData (effect i s.clearCycleFlags) t ∧ t.pc = BitVec.ofNat 12 (nextPc i s) := by
  rw [step_running (nextInstr_word hi).1, stepFault_of_nextInstr hi, hf, committed_of_nextInstr hi]
  exact ⟨_, rfl, ⟨rfl, rfl, rfl, rfl, rfl, rfl, rfl, rfl, rfl⟩, rfl⟩

/-- Settles O48: the step commits the store of V0 and V1 at pc + 2, which is the next pc. -/
theorem storedBytesAreFetchedNext : Obligations.StoredBytesAreFetchedNext := by
  intro s hi hidx hpc
  have hrange : s.idx.toNat + (1 : RegIx).toNat ≤ 0xFFF := by rw [hidx]; exact hpc
  obtain ⟨t, hstep, hdata, hnext⟩ := step_commits hi (instrFault_ldMemVx_eq_none hrange (by omega))
  have hpcNat : t.pc.toNat = s.pc.toNat + 2 := by
    rw [hnext, nextPc, BitVec.toNat_ofNat]
    omega
  have hread (k : RegIx) (hk : k.toNat ≤ 1) : t.readByte (t.pc.toNat + k.toNat) = s.V k := by
    rw [hpcNat, ← hidx, hdata.readByte]
    exact readByte_effect_ldMemVx s.clearCycleFlags hk hrange
  have hhi : t.readByte t.pc.toNat = s.V 0 := hread 0 (by decide)
  have hlo : t.readByte (t.pc.toNat + 1) = s.V 1 := hread 1 (by decide)
  exact ⟨t, hstep, hpcNat, by rw [wordAtPc_of_le (by omega), hhi, hlo, wordOfBytes_eq_ofNat]⟩

end Sys2Proof.Machine

/-! PROOFS. Family 30_encoding: the decoder and the encoder against each other, against the opcode table and against the
table of unrecognized words; and the step of an unrecognized word. -/

namespace Sys2Proof.Machine

/-! ### A word and its fields -/

/-- Bits that a mask keeps are those of the masked word. -/
theorem extractLsb'_of_mask {w m v : Word} {start len : Nat} (hm : m.extractLsb' start len = BitVec.allOnes len)
    (h : w &&& m = v) : w.extractLsb' start len = v.extractLsb' start len := by
  rw [← h, BitVec.extractLsb'_and, hm, BitVec.and_allOnes]

theorem formatA_fields (w : Word) : formatA (fieldN3 w) (fieldNnn w) = w :=
  (BitVec.extractLsb'_append_extractLsb'_eq_extractLsb' rfl).trans BitVec.extractLsb'_eq_self

theorem formatXK_fields (w : Word) : formatXK (fieldN3 w) (fieldX w) (fieldKk w) = w := by
  apply BitVec.eq_of_toNat_eq
  rw [formatXK_toNat, fieldN3_toNat, fieldX_toNat, fieldKk_toNat]
  omega

theorem formatXYN_fields (w : Word) : formatXYN (fieldN3 w) (fieldX w) (fieldY w) (fieldN w) = w := by
  apply BitVec.eq_of_toNat_eq
  rw [formatXYN_toNat, fieldN3_toNat, fieldX_toNat, fieldY_toNat, fieldN_toNat]
  omega

/-- A mask acts on each field of a word. -/
theorem and_formatXYN (w : Word) (op x y n : Nibble) :
    w &&& formatXYN op x y n = formatXYN (fieldN3 w &&& op) (fieldX w &&& x) (fieldY w &&& y) (fieldN w &&& n) := by
  have hop := fieldN3_formatXYN op x y n
  have hx := fieldX_formatXYN op x y n
  have hy := fieldY_formatXYN op x y n
  have hn := fieldN_formatXYN op x y n
  generalize formatXYN op x y n = m at *
  subst hop hx hy hn
  rw [← formatXYN_fields (w &&& m)]
  simp only [fieldN3, fieldX, fieldY, fieldN, BitVec.extractLsb'_and]

/-! ### Decoding what the encoder writes -/

theorem formatA_inj {op : Nibble} {a b : Addr} : formatA op a = formatA op b ↔ a = b :=
  ⟨fun h => by rw [← fieldNnn_formatA op a, h, fieldNnn_formatA], congrArg _⟩

/-- A well-formed SYS nnn is one whose word is neither that of CLS nor that of RET (R65). -/
theorem wellFormed_sys_iff {nnn : Addr} :
    (Instr.sys nnn).WellFormed ↔ formatA 0x0 nnn ≠ 0x00E0 ∧ formatA 0x0 nnn ≠ 0x00EE := by
  have hcls : formatA 0x0 nnn = 0x00E0 ↔ nnn = 0x0E0 := formatA_inj (b := 0x0E0)
  have hret : formatA 0x0 nnn = 0x00EE ↔ nnn = 0x0EE := formatA_inj (b := 0x0EE)
  simp only [Instr.WellFormed, Instr.wellFormed, Bool.and_eq_true, bne_iff_ne, Ne, hcls, hret]

/-- The words of family 0 that are neither CLS nor RET (R65). -/
theorem decodeWord_sys {w : Word} (hop : fieldN3 w = 0x0) (hcls : w ≠ 0x00E0) (hret : w ≠ 0x00EE) :
    decodeWord w = .ok (.sys (fieldNnn w)) := by
  unfold decodeWord
  rw [hop]
  change Except.ok (decodeFamily0 w) = _
  rw [decodeFamily0, if_neg hcls, if_neg hret]

theorem decodeWord_encode {i : Instr} (h : i.WellFormed) : decodeWord (encode i) = .ok i := by
  cases i with
  | cls | ret => rfl
  | sys nnn =>
    obtain ⟨hcls, hret⟩ := wellFormed_sys_iff.mp h
    simpa only [encode, fieldNnn_formatA] using decodeWord_sys (fieldN3_formatA 0x0 nnn) hcls hret
  | jp | call | ldINnn | jpV0Nnn => simp [encode, decodeWord, fieldN3_formatA, fieldNnn_formatA]
  | seVxKk | sneVxKk | ldVxKk | addVxKk | rndVxKk =>
    simp [encode, decodeWord, fieldN3_formatXK, fieldX_formatXK, fieldKk_formatXK]
  | seVxVy | sneVxVy | drwVxVyN =>
    simp [encode, decodeWord, fieldN3_formatXYN, fieldX_formatXYN, fieldY_formatXYN, fieldN_formatXYN]
  | ldVxVy | orVxVy | andVxVy | xorVxVy | addVxVy | subVxVy | shrVx | subnVxVy | shlVx =>
    simp [encode, decodeWord, decodeFamily8, fieldN3_formatXYN, fieldX_formatXYN, fieldY_formatXYN, fieldN_formatXYN]
  | skpVx | sknpVx =>
    simp [encode, decodeWord, decodeFamilyE, fieldN3_formatXK, fieldX_formatXK, fieldKk_formatXK]
  | ldVxDt | ldVxK | ldDtVx | ldStVx | addIVx | ldFVx | ldBVx | ldMemVx | ldVxMem =>
    simp [encode, decodeWord, decodeFamilyF, fieldN3_formatXK, fieldX_formatXK, fieldKk_formatXK]

theorem decode_bytesOfWord {w : Word} {i : Instr} (rest : List Byte) (h : decodeWord w = .ok i) :
    decode (bytesOfWord w ++ rest) = .ok (i, rest) := by
  simp [bytesOfWord, decode, wordOfBytes_bytesOfWord, h]

/-- Settles O1: the decoder reads each row's fields back from the format word of the row. -/
theorem decodeOfEncodeIsTheInstruction : Obligations.DecodeOfEncodeIsTheInstruction :=
  fun _ rest h => ⟨decodeWord_encode h, decode_bytesOfWord rest (decodeWord_encode h)⟩

theorem decodeWord_seVxVy (x y : RegIx) (n : Nibble) : decodeWord (formatXYN 0x5 x y n) = .ok (.seVxVy x y) := by
  simp [decodeWord, fieldN3_formatXYN, fieldX_formatXYN, fieldY_formatXYN]

theorem decodeWord_sneVxVy (x y : RegIx) (n : Nibble) : decodeWord (formatXYN 0x9 x y n) = .ok (.sneVxVy x y) := by
  simp [decodeWord, fieldN3_formatXYN, fieldX_formatXYN, fieldY_formatXYN]

theorem decodeWord_shrVx (x y : RegIx) : decodeWord (formatXYN 0x8 x y 0x6) = .ok (.shrVx x) := by
  simp [decodeWord, decodeFamily8, fieldN3_formatXYN, fieldX_formatXYN, fieldN_formatXYN]

theorem decodeWord_shlVx (x y : RegIx) : decodeWord (formatXYN 0x8 x y 0xE) = .ok (.shlVx x) := by
  simp [decodeWord, decodeFamily8, fieldN3_formatXYN, fieldX_formatXYN, fieldN_formatXYN]

/-- Settles O5: the decoder does not look at the ignored fields. -/
theorem dontCareBitsDoNotChangeTheInstruction : Obligations.DontCareBitsDoNotChangeTheInstruction :=
  fun x y n => ⟨decodeWord_seVxVy x y n, decodeWord_sneVxVy x y n, decodeWord_shrVx x y, decodeWord_shlVx x y,
    rfl, rfl, rfl, rfl⟩

/-! ### The rows of the opcode table -/

section Rows

variable {w : Word} {op n : Nibble} {kk : Byte}

theorem fieldN3_of_mask (h : w &&& 0xF000 = formatA op 0) : fieldN3 w = op :=
  (extractLsb'_of_mask rfl h).trans (fieldN3_formatA op 0)

theorem eq_formatA_of_mask (h : w &&& 0xF000 = formatA op 0) : w = formatA op (fieldNnn w) := by
  rw [← fieldN3_of_mask h, formatA_fields]

theorem eq_formatXK_of_mask (h : w &&& 0xF000 = formatA op 0) : w = formatXK op (fieldX w) (fieldKk w) := by
  rw [← fieldN3_of_mask h, formatXK_fields]

theorem eq_formatXYN_of_mask (h : w &&& 0xF000 = formatA op 0) :
    w = formatXYN op (fieldX w) (fieldY w) (fieldN w) := by
  rw [← fieldN3_of_mask h, formatXYN_fields]

theorem eq_formatXYN_of_nibbleMask (h : w &&& 0xF00F = formatXYN op 0 0 n) :
    w = formatXYN op (fieldX w) (fieldY w) n := by
  have hop : fieldN3 w = op := (extractLsb'_of_mask rfl h).trans (fieldN3_formatXYN op 0 0 n)
  have hn : fieldN w = n := (extractLsb'_of_mask rfl h).trans (fieldN_formatXYN op 0 0 n)
  rw [← hop, ← hn, formatXYN_fields]

theorem eq_formatXK_of_byteMask (h : w &&& 0xF0FF = formatXK op 0 kk) : w = formatXK op (fieldX w) kk := by
  have hop : fieldN3 w = op := (extractLsb'_of_mask rfl h).trans (fieldN3_formatXK op 0 kk)
  have hkk : fieldKk w = kk := (extractLsb'_of_mask rfl h).trans (fieldKk_formatXK op 0 kk)
  rw [← hop, ← hkk, formatXK_fields]

end Rows

/-- Settles O3: a word that meets a row's mask and match is a format word of that row, so the canonical word of its
instruction but in the rows with ignored bits. -/
theorem tableRowsSelectTheirInstruction : Obligations.TableRowsSelectTheirInstruction := by
  intro w x y n kk nnn
  have canonical {i : Instr} (hi : i.WellFormed) (hw : w = encode i) : decodeWord w = .ok i := hw ▸ decodeWord_encode hi
  have ignoring {v : Word} {i : Instr} (hv : decodeWord v = .ok i) (hw : w = v) : decodeWord w = .ok i := hw ▸ hv
  have hall : w &&& 0xFFFF = w := BitVec.and_allOnes
  exact
   ⟨fun h => canonical rfl (hall.symm.trans h),
    fun h => canonical rfl (hall.symm.trans h),
    fun h => decodeWord_sys (fieldN3_of_mask (op := 0x0) h),
    fun h => canonical rfl (eq_formatA_of_mask h),
    fun h => canonical rfl (eq_formatA_of_mask h),
    fun h => canonical rfl (eq_formatXK_of_mask h),
    fun h => canonical rfl (eq_formatXK_of_mask h),
    fun h => ignoring (decodeWord_seVxVy x y n) (eq_formatXYN_of_mask h),
    fun h => canonical rfl (eq_formatXK_of_mask h),
    fun h => canonical rfl (eq_formatXK_of_mask h),
    fun h => canonical rfl (eq_formatXYN_of_nibbleMask h),
    fun h => canonical rfl (eq_formatXYN_of_nibbleMask h),
    fun h => canonical rfl (eq_formatXYN_of_nibbleMask h),
    fun h => canonical rfl (eq_formatXYN_of_nibbleMask h),
    fun h => canonical rfl (eq_formatXYN_of_nibbleMask h),
    fun h => canonical rfl (eq_formatXYN_of_nibbleMask h),
    fun h => ignoring (decodeWord_shrVx x y) (eq_formatXYN_of_nibbleMask h),
    fun h => canonical rfl (eq_formatXYN_of_nibbleMask h),
    fun h => ignoring (decodeWord_shlVx x y) (eq_formatXYN_of_nibbleMask h),
    fun h => ignoring (decodeWord_sneVxVy x y n) (eq_formatXYN_of_mask h),
    fun h => canonical rfl (eq_formatA_of_mask h),
    fun h => canonical rfl (eq_formatA_of_mask h),
    fun h => canonical rfl (eq_formatXK_of_mask h),
    fun h => canonical rfl (eq_formatXYN_of_mask h),
    fun h => canonical rfl (eq_formatXK_of_byteMask h),
    fun h => canonical rfl (eq_formatXK_of_byteMask h),
    fun h => canonical rfl (eq_formatXK_of_byteMask h),
    fun h => canonical rfl (eq_formatXK_of_byteMask h),
    fun h => canonical rfl (eq_formatXK_of_byteMask h),
    fun h => canonical rfl (eq_formatXK_of_byteMask h),
    fun h => canonical rfl (eq_formatXK_of_byteMask h),
    fun h => canonical rfl (eq_formatXK_of_byteMask h),
    fun h => canonical rfl (eq_formatXK_of_byteMask h),
    fun h => canonical rfl (eq_formatXK_of_byteMask h),
    fun h => canonical rfl (eq_formatXK_of_byteMask h)⟩

/-! ### Encoding what the decoder reads -/

/-- The bits that R67 clears, by the fields of the word. -/
theorem canonicalWord_eq (w : Word) :
    canonicalWord w =
      if fieldN3 w = 0x5 ∨ fieldN3 w = 0x9 then formatXYN (fieldN3 w) (fieldX w) (fieldY w) 0
      else if fieldN3 w = 0x8 ∧ (fieldN w = 0x6 ∨ fieldN w = 0xE) then formatXYN (fieldN3 w) (fieldX w) 0 (fieldN w)
      else w := by
  have keep (b : Nibble) : b &&& 0xF = b := BitVec.and_allOnes
  have clear (b : Nibble) : b &&& 0x0 = 0 := BitVec.and_zero
  have hlow : w &&& 0xFFF0 = formatXYN (fieldN3 w) (fieldX w) (fieldY w) 0 :=
    (and_formatXYN w 0xF 0xF 0xF 0x0).trans (by simp only [keep, clear])
  have hmid : w &&& 0xFF0F = formatXYN (fieldN3 w) (fieldX w) 0 (fieldN w) :=
    (and_formatXYN w 0xF 0xF 0x0 0xF).trans (by simp only [keep, clear])
  rw [← hlow, ← hmid]
  rfl

/-- Clearing the ignored bits keeps the primary opcode. -/
theorem fieldN3_canonicalWord (w : Word) : fieldN3 (canonicalWord w) = fieldN3 w := by
  rw [canonicalWord_eq]
  split
  · exact fieldN3_formatXYN ..
  · split
    · exact fieldN3_formatXYN ..
    · rfl

section Decoded

variable {w : Word} {op n : Nibble} {kk : Byte}

theorem canonicalWord_eq_self (hop : (fieldN3 w).toNat = op.toNat) (hplain : op ≠ 0x5 ∧ op ≠ 0x8 ∧ op ≠ 0x9) :
    canonicalWord w = w := by
  obtain ⟨h5, h8, h9⟩ := hplain
  rw [canonicalWord_eq, BitVec.eq_of_toNat_eq hop, if_neg (not_or.mpr ⟨h5, h9⟩), if_neg (h8 ·.1)]

theorem formatA_eq_canonicalWord (hop : (fieldN3 w).toNat = op.toNat) (hplain : op ≠ 0x5 ∧ op ≠ 0x8 ∧ op ≠ 0x9) :
    formatA op (fieldNnn w) = canonicalWord w := by
  rw [canonicalWord_eq_self hop hplain, ← BitVec.eq_of_toNat_eq hop, formatA_fields]

theorem formatXK_eq_canonicalWord (hop : (fieldN3 w).toNat = op.toNat) (hkk : (fieldKk w).toNat = kk.toNat)
    (hplain : op ≠ 0x5 ∧ op ≠ 0x8 ∧ op ≠ 0x9) : formatXK op (fieldX w) kk = canonicalWord w := by
  rw [canonicalWord_eq_self hop hplain, ← BitVec.eq_of_toNat_eq hop, ← BitVec.eq_of_toNat_eq hkk, formatXK_fields]

theorem formatXYN_eq_canonicalWord (hop : (fieldN3 w).toNat = op.toNat) (hplain : op ≠ 0x5 ∧ op ≠ 0x8 ∧ op ≠ 0x9) :
    formatXYN op (fieldX w) (fieldY w) (fieldN w) = canonicalWord w := by
  rw [canonicalWord_eq_self hop hplain, ← BitVec.eq_of_toNat_eq hop, formatXYN_fields]

/-- The words of family 8: SHR and SHL have no `y` (R67). -/
theorem formatXYN_eq_canonicalWord_of_family8 {y : RegIx} (hop : (fieldN3 w).toNat = 0x8)
    (hn : (fieldN w).toNat = n.toNat) (hy : y = if n = 0x6 ∨ n = 0xE then 0 else fieldY w) :
    formatXYN 0x8 (fieldX w) y n = canonicalWord w := by
  have hop' : fieldN3 w = 0x8 := BitVec.eq_of_toNat_eq hop
  have hn' : fieldN w = n := BitVec.eq_of_toNat_eq hn
  rw [canonicalWord_eq, hop', hn', if_neg (by decide), hy]
  by_cases hshift : n = 0x6 ∨ n = 0xE
  · rw [if_pos hshift, if_pos ⟨rfl, hshift⟩]
  · rw [if_neg hshift, if_neg (hshift ·.2), ← hop', ← hn', formatXYN_fields]

/-- The words of SE Vx, Vy and SNE Vx, Vy, which have no low nibble (R67). -/
theorem formatXYN_eq_canonicalWord_of_skip (hop : (fieldN3 w).toNat = op.toNat) (hskip : op = 0x5 ∨ op = 0x9) :
    formatXYN op (fieldX w) (fieldY w) 0 = canonicalWord w := by
  rw [canonicalWord_eq, BitVec.eq_of_toNat_eq hop, if_pos hskip]

end Decoded

/-- `i` is the instruction that the word `w` stands for, up to the ignored bits. -/
def ReadsFrom (i : Instr) (w : Word) : Prop := i.WellFormed ∧ encode i = canonicalWord w

theorem readsFrom_decodeFamily0 {w : Word} (hop : (fieldN3 w).toNat = 0x0) : ReadsFrom (decodeFamily0 w) w := by
  have hself : canonicalWord w = w := canonicalWord_eq_self (op := 0x0) hop (by decide)
  have hsys : formatA 0x0 (fieldNnn w) = canonicalWord w := formatA_eq_canonicalWord hop (by decide)
  unfold decodeFamily0
  split
  · next hcls => exact ⟨rfl, (hself.trans hcls).symm⟩
  split
  · next hret => exact ⟨rfl, (hself.trans hret).symm⟩
  · next hcls hret =>
    have hw : formatA 0x0 (fieldNnn w) = w := hsys.trans hself
    exact ⟨wellFormed_sys_iff.mpr (by rw [hw]; exact ⟨hcls, hret⟩), hsys⟩

theorem readsFrom_decodeFamily8 {w : Word} {i : Instr} (hop : (fieldN3 w).toNat = 0x8)
    (h : decodeFamily8 w = .ok i) : ReadsFrom i w := by
  unfold decodeFamily8 at h
  split at h
  all_goals cases h
  all_goals next hn => exact ⟨rfl, formatXYN_eq_canonicalWord_of_family8 hop hn rfl⟩

theorem readsFrom_decodeFamilyE {w : Word} {i : Instr} (hop : (fieldN3 w).toNat = 0xE)
    (h : decodeFamilyE w = .ok i) : ReadsFrom i w := by
  unfold decodeFamilyE at h
  split at h
  all_goals cases h
  all_goals next hkk => exact ⟨rfl, formatXK_eq_canonicalWord hop hkk (by decide)⟩

theorem readsFrom_decodeFamilyF {w : Word} {i : Instr} (hop : (fieldN3 w).toNat = 0xF)
    (h : decodeFamilyF w = .ok i) : ReadsFrom i w := by
  unfold decodeFamilyF at h
  split at h
  all_goals cases h
  all_goals next hkk => exact ⟨rfl, formatXK_eq_canonicalWord hop hkk (by decide)⟩

section Families

variable {w : Word}

theorem decodeWord_of_family8 (hop : (fieldN3 w).toNat = 0x8) : decodeWord w = decodeFamily8 w := by
  simp only [decodeWord, hop]

theorem decodeWord_of_familyE (hop : (fieldN3 w).toNat = 0xE) : decodeWord w = decodeFamilyE w := by
  simp only [decodeWord, hop]

theorem decodeWord_of_familyF (hop : (fieldN3 w).toNat = 0xF) : decodeWord w = decodeFamilyF w := by
  simp only [decodeWord, hop]

/-- Outside the families 8, E and F every word is an instruction (R65, R66). -/
theorem decodeWord_of_otherFamily (h8 : (fieldN3 w).toNat ≠ 0x8) (hlt : (fieldN3 w).toNat < 0xE) :
    ∃ i, decodeWord w = .ok i ∧ ReadsFrom i w := by
  unfold decodeWord
  split
  · next hop => exact ⟨_, rfl, readsFrom_decodeFamily0 hop⟩
  · next hop => exact ⟨_, rfl, rfl, formatA_eq_canonicalWord hop (by decide)⟩
  · next hop => exact ⟨_, rfl, rfl, formatA_eq_canonicalWord hop (by decide)⟩
  · next hop => exact ⟨_, rfl, rfl, formatXK_eq_canonicalWord hop rfl (by decide)⟩
  · next hop => exact ⟨_, rfl, rfl, formatXK_eq_canonicalWord hop rfl (by decide)⟩
  · next hop => exact ⟨_, rfl, rfl, formatXYN_eq_canonicalWord_of_skip hop (.inl rfl)⟩
  · next hop => exact ⟨_, rfl, rfl, formatXK_eq_canonicalWord hop rfl (by decide)⟩
  · next hop => exact ⟨_, rfl, rfl, formatXK_eq_canonicalWord hop rfl (by decide)⟩
  · next hop => exact absurd hop h8
  · next hop => exact ⟨_, rfl, rfl, formatXYN_eq_canonicalWord_of_skip hop (.inr rfl)⟩
  · next hop => exact ⟨_, rfl, rfl, formatA_eq_canonicalWord hop (by decide)⟩
  · next hop => exact ⟨_, rfl, rfl, formatA_eq_canonicalWord hop (by decide)⟩
  · next hop => exact ⟨_, rfl, rfl, formatXK_eq_canonicalWord hop rfl (by decide)⟩
  · next hop => exact ⟨_, rfl, rfl, formatXYN_eq_canonicalWord hop (by decide)⟩
  · omega
  · simp only [imp_false] at *
    omega

end Families

theorem family_cases (w : Word) :
    (fieldN3 w).toNat = 0x8 ∨ (fieldN3 w).toNat = 0xE ∨ (fieldN3 w).toNat = 0xF ∨
      (fieldN3 w).toNat ≠ 0x8 ∧ (fieldN3 w).toNat < 0xE := by
  have := (fieldN3 w).isLt
  omega

theorem readsFrom_of_decodeWord {w : Word} {i : Instr} (h : decodeWord w = .ok i) : ReadsFrom i w := by
  rcases family_cases w with hop | hop | hop | ⟨h8, hlt⟩
  · exact readsFrom_decodeFamily8 hop (decodeWord_of_family8 hop ▸ h)
  · exact readsFrom_decodeFamilyE hop (decodeWord_of_familyE hop ▸ h)
  · exact readsFrom_decodeFamilyF hop (decodeWord_of_familyF hop ▸ h)
  · obtain ⟨j, hj, hreads⟩ := decodeWord_of_otherFamily h8 hlt
    cases hj.symm.trans h
    exact hreads

/-- Settles O2: each row's fields make up the word, but for the fields that R67 ignores. -/
theorem encodeOfDecodeClearsOnlyDontCareBits : Obligations.EncodeOfDecodeClearsOnlyDontCareBits :=
  fun _ _ => readsFrom_of_decodeWord

/-! ### The unrecognized words -/

theorem decodeFamily8_eq_error_iff (w : Word) :
    decodeFamily8 w = .error (.unrecognized w) ↔ w.toNat % 16 ∈ [0x8, 0x9, 0xA, 0xB, 0xC, 0xD, 0xF] := by
  rw [← fieldN_toNat]
  have := (fieldN w).isLt
  unfold decodeFamily8
  split
  case h_10 =>
    refine iff_of_true rfl ?_
    simp only [imp_false, List.mem_cons, List.not_mem_nil, or_false] at *
    omega
  all_goals next hn => simp [hn]

theorem decodeFamilyE_eq_error_iff (w : Word) :
    decodeFamilyE w = .error (.unrecognized w) ↔ w.toNat % 256 ∉ [0x9E, 0xA1] := by
  rw [← fieldKk_toNat]
  unfold decodeFamilyE
  split
  case h_3 => simp_all
  all_goals next hkk => simp [hkk]

theorem decodeFamilyF_eq_error_iff (w : Word) :
    decodeFamilyF w = .error (.unrecognized w) ↔
      w.toNat % 256 ∉ [0x07, 0x0A, 0x15, 0x18, 0x1E, 0x29, 0x33, 0x55, 0x65] := by
  rw [← fieldKk_toNat]
  unfold decodeFamilyF
  split
  case h_10 => simp_all
  all_goals next hkk => simp [hkk]

theorem decodeWord_eq_error_iff (w : Word) :
    decodeWord w = .error (.unrecognized w) ↔
      (w.toNat / 4096 = 0x8 ∧ decodeFamily8 w = .error (.unrecognized w)) ∨
      (w.toNat / 4096 = 0xE ∧ decodeFamilyE w = .error (.unrecognized w)) ∨
      (w.toNat / 4096 = 0xF ∧ decodeFamilyF w = .error (.unrecognized w)) := by
  rw [← fieldN3_toNat]
  rcases family_cases w with hop | hop | hop | ⟨h8, hlt⟩
  · simp [decodeWord_of_family8 hop, hop]
  · simp [decodeWord_of_familyE hop, hop]
  · simp [decodeWord_of_familyF hop, hop]
  · obtain ⟨i, hi, -⟩ := decodeWord_of_otherFamily h8 hlt
    simp [hi, h8, hlt.ne, (hlt.trans (Nat.lt_succ_self _)).ne]

theorem fieldN3_eq_zero_iff (w : Word) : fieldN3 w = 0 ↔ w.toNat ≤ 0x0FFF := by
  rw [← BitVec.toNat_inj, fieldN3_toNat]
  change w.toNat / 4096 = 0 ↔ _
  omega

theorem decodeWord_eq_sys_iff (w : Word) :
    (∃ nnn, decodeWord w = .ok (.sys nnn)) ↔ w.toNat ≤ 0x0FFF ∧ w ≠ 0x00E0 ∧ w ≠ 0x00EE := by
  rw [← fieldN3_eq_zero_iff]
  constructor
  · rintro ⟨nnn, h⟩
    obtain ⟨-, hw⟩ := readsFrom_of_decodeWord h
    refine ⟨?_, ?_, ?_⟩
    · rw [← fieldN3_canonicalWord, ← hw]
      exact fieldN3_formatA 0 nnn
    · rintro rfl
      cases h
    · rintro rfl
      cases h
  · rintro ⟨hop, hcls, hret⟩
    exact ⟨fieldNnn w, decodeWord_sys hop hcls hret⟩

/-- Settles O4, by the family of the word. -/
theorem rejectedWordsAreThoseOfTheUnrecognizedTable : Obligations.RejectedWordsAreThoseOfTheUnrecognizedTable := by
  intro w
  refine ⟨?_, decodeWord_eq_sys_iff w⟩
  rw [decodeWord_eq_error_iff, decodeFamily8_eq_error_iff, decodeFamilyE_eq_error_iff, decodeFamilyF_eq_error_iff]

/-- Settles O6, by reading the fourteen words. -/
theorem knownWordsDecodeAsThePatternsSay : Obligations.KnownWordsDecodeAsThePatternsSay := by
  unfold Obligations.KnownWordsDecodeAsThePatternsSay
  decide

/-! ### The step of an unrecognized word -/

theorem stepFault_of_rejected {s : State} {w : Word} {r : Reject} (hw : s.wordAtPc = some w)
    (hd : decodeWord w = .error r) : stepFault s = if 0xFFF < s.pc.toNat + 2 then some .pcRange else none := by
  simp [stepFault, hw, hd]

theorem nextInstr_of_rejected {s : State} {w : Word} {r : Reject} (hw : s.wordAtPc = some w)
    (hd : decodeWord w = .error r) : s.nextInstr = none := by
  simp [State.nextInstr, hw, hd, Except.toOption]

/-- The tone flag after a step that leaves ST to the countdown (R192). -/
theorem countdown_bne_zero (t : Byte) : (countdown t != 0) = decide (1 < t.toNat) := by
  rw [Bool.eq_iff_iff, bne_iff_ne, decide_eq_true_iff, Ne, ← BitVec.toNat_inj, countdown_toNat]
  change ¬ t.toNat - 1 = 0 ↔ 1 < t.toNat
  omega

/-- Settles O9: no word of the unrecognized set has a fault of its own, and the step commits the no-op of R90. -/
theorem unrecognizedWordIsANoOp : Obligations.UnrecognizedWordIsANoOp := by
  intro s w r hs hw hd
  rw [step_running hs, stepFault_of_rejected hw hd]
  constructor
  · intro hpc
    rw [if_neg (by omega), committed_of_nextInstr_none (nextInstr_of_rejected hw hd), ofNat_pc_add,
      ← countdown_bne_zero]
    rfl
  · intro hpc
    rw [if_pos (by simp [hpc])]
    rfl

end Sys2Proof.Machine

/-! PROOFS. Family 40_cycle: the step of a decoded instruction, the halted core, the order of the faults, the next pc,
the timers, the modes, and the samples of the inputs. -/

namespace Sys2Proof.Machine

/-! ### The step as a function -/

/-- Settles O12: a halted core answers itself, any other the state of `step_running`. -/
theorem stepIsTotal : Obligations.StepIsTotal := by
  intro s
  cases hs : s.halted with
  | true => exact ⟨s, step_halted hs⟩
  | false => exact ⟨_, step_running hs⟩

theorem stepsTo_halted {s : State} (h : s.halted = true) (n : Nat) : stepsTo n s = s := by
  induction n with
  | zero => rfl
  | succ n ih => rw [stepsTo_succ, ih, stepTo_eq (step_halted h)]

/-- Settles O11, for many steps by induction on their number. -/
theorem haltedCoreIsFrozen : Obligations.HaltedCoreIsFrozen :=
  fun _ h => ⟨step_halted h, stepsTo_halted h⟩

/-- A step executes the instruction at pc on the state with its per-cycle flags cleared, and then ends (R82). -/
theorem step_of_exec {s t : State} {w : Word} {i : Instr} (hs : s.halted = false) (hw : s.wordAtPc = some w)
    (hd : decodeWord w = .ok i) (he : exec i s.clearCycleFlags = .next t) : step s = .next t.finishStep := by
  obtain ⟨hi, lo, hfetch, rfl⟩ := wordAtPc_some hw
  simp [step, hs, fetchWord_clearCycleFlags, hfetch, execWord, hd, he]

/-- Settles O8: the end of the step runs the timers unless the instruction raised a fault. -/
theorem stepRunsTheDecodedInstruction : Obligations.StepRunsTheDecodedInstruction := by
  intro s t w i hs hw hd he
  rw [step_of_exec hs hw hd he, ← countdown_bne_zero]
  by_cases ht : t.halted = true
  · rw [finishStep_of_halted ht, if_pos ht]; rfl
  · rw [finishStep_of_running (Bool.eq_false_of_not_eq_true ht), if_neg ht]; rfl

/-- Settles O32: SYS has no fault of its own and writes `unrec` only. -/
theorem sysIsANoOp : Obligations.SysIsANoOp :=
  fun _ _ => completesNext2_of_effect rfl rfl (Bool.or_false _) rfl

/-! ### Faults and the next pc -/

/-- Settles O14: `instrFault` looks at the own fault first. -/
theorem instructionFaultsInPriorityOrder : Obligations.InstructionFaultsInPriorityOrder := by
  intro i s
  rw [exec_eq]
  refine ⟨fun f hown => ?_, fun hown hpc => ?_⟩
  · rw [outcome_of_ownFault hown, State.raise_eq_faulted]
  · have hfault : instrFault i s = some .pcRange := by simp [instrFault, hown, hpc]
    simp [outcomeState, hfault, causeCode]

theorem nextPc_le_of_instrFault_none {i : Instr} {s : State} (h : instrFault i s = none) : nextPc i s ≤ 0xFFF := by
  by_contra hgt
  have hpc : pcOutOfRange i s = true := by simp [pcOutOfRange, Nat.lt_of_not_le hgt]
  simp [instrFault, ownFault_of_instrFault_none h, hpc] at h

/-- A step that fetches a word and executes no instruction meets an unrecognized word, whose one fault is PcRange
(R90). -/
theorem pc_le_of_unrecognized {s : State} (hs : s.halted = false) (hf : stepFault s = none)
    (hi : s.nextInstr = none) : s.pc.toNat + 2 ≤ 0xFFF := by
  cases hw : s.wordAtPc with
  | none => simp [stepFault, hw] at hf
  | some w =>
    cases hd : decodeWord w with
    | ok i => simp [State.nextInstr, hs, hw, hd, Except.toOption] at hi
    | error r =>
      rw [stepFault_of_rejected hw hd] at hf
      by_contra hgt
      simp [Nat.lt_of_not_le hgt] at hf

/-- Settles O16: without a fault the next pc is at most 0xFFF, so that cutting it to 12 bits keeps it. -/
theorem nextPcFollowsTheOutcomeTable : Obligations.NextPcFollowsTheOutcomeTable := by
  rintro s t ⟨-, hstep, ht⟩
  obtain ⟨hs, hf, rfl⟩ := committed_of_running hstep ht
  refine ⟨fun i hi => ?_, fun hi => ?_⟩
  · rw [stepFault_of_nextInstr hi] at hf
    rw [committed_of_nextInstr hi]
    exact Nat.mod_eq_of_lt (Nat.lt_succ_of_le (nextPc_le_of_instrFault_none hf))
  · rw [committed_of_nextInstr_none hi]
    exact Nat.mod_eq_of_lt (Nat.lt_succ_of_le (pc_le_of_unrecognized hs hf hi))

/-! ### The timers -/

/-- What a committed step has in the timers before they count down (R190). -/
theorem committed_timers (s : State) :
    (committed s).dt = (match s.nextInstr with | some (.ldDtVx x) => s.V x | _ => s.dt) ∧
    (committed s).st = (match s.nextInstr with | some (.ldStVx x) => s.V x | _ => s.st) := by
  cases hi : s.nextInstr with
  | none => rw [committed_of_nextInstr_none hi]; exact ⟨rfl, rfl⟩
  | some i =>
    rw [committed_of_nextInstr hi]
    obtain ⟨hdt, hst⟩ := effect_timers i s.clearCycleFlags
    refine ⟨hdt.trans ?_, hst.trans ?_⟩ <;> cases i <;> rfl

/-- Settles O20: a committed step counts each timer down from the instruction's write, and no other step writes one. -/
theorem timersCountDownOnEveryCommittedStep : Obligations.TimersCountDownOnEveryCommittedStep := by
  intro s t hstep
  refine ⟨fun ht => ?_, fun ht => ?_⟩
  · obtain ⟨-, -, rfl⟩ := committed_of_running hstep ht
    obtain ⟨hdt, hst⟩ := committed_timers s
    exact ⟨(countdown_toNat _).trans (congrArg (·.toNat - 1) hdt),
      (countdown_toNat _).trans (congrArg (·.toNat - 1) hst)⟩
  · rcases step_cases hstep with ⟨-, rfl⟩ | ⟨-, f, -, rfl⟩ | ⟨hs, -, rfl⟩
    · exact ⟨rfl, rfl⟩
    · exact ⟨rfl, rfl⟩
    · cases (committed_halted hs).symm.trans ht

/-! ### The modes -/

theorem State.mode_eq_halted_iff (s : State) : s.mode = .halted ↔ s.halted = true := by
  unfold State.mode
  cases s.halted <;> cases s.kwActive <;> simp

theorem State.mode_eq_awaitingKey_iff (s : State) :
    s.mode = .awaitingKey ↔ s.halted = false ∧ s.kwActive = true := by
  unfold State.mode
  cases s.halted <;> cases s.kwActive <;> simp

theorem State.mode_eq_running_iff (s : State) : s.mode = .running ↔ s.halted = false ∧ s.kwActive = false := by
  unfold State.mode
  cases s.halted <;> cases s.kwActive <;> simp

/-- A core that is not halted halts exactly by a fault (R81). -/
theorem step_halts_iff {s t : State} (hs : s.halted = false) (hstep : step s = .next t) :
    t.halted = true ↔ ∃ f, stepFault s = some f := by
  rcases step_cases hstep with ⟨hh, -⟩ | ⟨-, f, hf, rfl⟩ | ⟨-, hf, rfl⟩
  · cases hs.symm.trans hh
  · exact iff_of_true rfl ⟨f, hf⟩
  · exact iff_of_false (by simp [committed_halted hs]) (by simp [hf])

/-- A step that turns the key-wait latch on or off executes LD Vx, K (R23). -/
theorem nextInstr_of_latch_changed {s t : State} (hstep : step s = .next t) (h : t.kwActive ≠ s.kwActive) :
    ∃ x, s.nextInstr = some (.ldVxK x) := by
  obtain ⟨-, -, hlatch, -⟩ := indexFramebufferAndLatchWriters s t hstep
  exact hlatch (.inl h)

/-- While the keys equal the snapshot, LD Vx, K writes nothing (R183). -/
theorem effect_ldVxK_of_unchanged_keys {x : RegIx} {s : State} (hact : s.kwActive = true)
    (hkeys : s.keys = s.kwSnap) : effect (.ldVxK x) s = s := by
  have hnone : firstSetBit (s.keys ^^^ s.kwSnap) = none := by rw [firstSetBit_eq_none_iff, hkeys, BitVec.xor_self]
  simp [effect, hact, hnone]

/-- A step that releases the latch has sampled a changed key (R183). -/
theorem keys_ne_snap_of_released {s t : State} (hstep : step s = .next t) (hs : s.kwActive = true)
    (ht : t.kwActive = false) : s.keys ≠ s.kwSnap := by
  intro hkeys
  obtain ⟨x, hx⟩ := nextInstr_of_latch_changed hstep (by simp [hs, ht])
  rcases step_data hstep with ⟨hsame, -⟩ | ⟨i, hi, -, -, hdata, -⟩
  · cases ht.symm.trans (hsame.kwActive.trans hs)
  · cases hx.symm.trans hi
    have hstay : effect (.ldVxK x) s.clearCycleFlags = s.clearCycleFlags :=
      effect_ldVxK_of_unchanged_keys hs hkeys
    rw [hstay] at hdata
    cases ht.symm.trans (hdata.kwActive.trans hs)

/-- Settles O22: a step that changes the latch executes LD Vx, K, and one that changes `halted` raises a fault. -/
theorem modeChangesOnlyAsTheStateMachineSays : Obligations.ModeChangesOnlyAsTheStateMachineSays := by
  intro s t hstep
  simp only [ne_eq, State.mode_eq_halted_iff, State.mode_eq_running_iff, State.mode_eq_awaitingKey_iff]
  refine ⟨fun hs => ?_, fun hs => ?_, fun ⟨_, hs⟩ ⟨_, ht⟩ => ?_, fun ⟨_, hs⟩ ⟨_, ht⟩ => ?_, rfl, rfl⟩
  · cases (step_halted hs).symm.trans hstep
    exact hs
  · exact step_halts_iff (Bool.eq_false_of_not_eq_true hs) hstep
  · exact nextInstr_of_latch_changed hstep (by simp [hs, ht])
  · exact ⟨nextInstr_of_latch_changed hstep (by simp [hs, ht]), keys_ne_snap_of_released hstep hs ht⟩

/-! ### The samples of the inputs -/

/-- Every step of a core that is not halted spends one sample, whether it faults or commits (R80). -/
theorem step_environment {s t : State} (hs : s.halted = false) (hstep : step s = .next t) :
    t.inputs = s.inputs.tail ∧ t.tick = s.tick + 1 := by
  rcases step_cases hstep with ⟨hh, -⟩ | ⟨-, f, -, rfl⟩ | ⟨-, -, rfl⟩
  · cases hs.symm.trans hh
  · exact ⟨rfl, rfl⟩
  · obtain ⟨hinputs, htick⟩ := committed_environment s
    simp [hinputs, htick]

theorem State.sample_of_inputs {s : State} {a : StepInput} {rest : List StepInput} (h : s.inputs = a :: rest) :
    s.keys = a.keys ∧ s.rnd = a.rnd := by
  simp [State.keys, State.rnd, State.sample, h]

/-- The reset input keeps the environment's inputs (R240). -/
@[simp] theorem State.rst_inputs (s : State) : s.rst.inputs = s.inputs := rfl

/-- Settles O60: neither the reset input nor a step of the halted core spends the sample that the step left. -/
theorem eachStepTakesOneSample : Obligations.EachStepTakesOneSample := by
  intro s hs
  refine ⟨fun t => step_environment hs, fun a b rest n hinputs => ?_⟩
  have hnext : (stepTo s).inputs = b :: rest := by
    obtain ⟨t, hstep⟩ := stepIsTotal s
    rw [stepTo_eq hstep, (step_environment hs hstep).1, hinputs, List.tail_cons]
  obtain ⟨hkeys, hrnd⟩ := State.sample_of_inputs hinputs
  obtain ⟨hkeys', hrnd'⟩ := State.sample_of_inputs hnext
  have hreset : (stepTo s).rst.keys = b.keys ∧ (stepTo s).rst.rnd = b.rnd := State.sample_of_inputs hnext
  refine ⟨hkeys, hrnd, hkeys', hrnd', fun hhalted => ?_, hreset⟩
  rw [stepsTo_halted hhalted]
  exact hreset

end Sys2Proof.Machine

/-! PROOFS. Family 41_control_transfer: RET, the jumps, CALL and the skips as exact next states, and RET after CALL. -/

namespace Sys2Proof.Machine

/-! ### Instructions that go to an address -/

/-- An instruction that goes to a 12-bit address raises no PcRange for it (R102); a CALL has its return address checked
besides (R103). -/
theorem exec_goes_to_address {i : Instr} {s : State} {a : Addr} (hown : ownFault i s = none)
    (hnext : nextPc i s = a.toNat) (hreturn : ∀ nnn, i = .call nnn → s.pc.toNat + 2 ≤ 0xFFF) :
    exec i s = .next { effect i s with pc := a } := by
  have ha : ¬ 0xFFF < a.toNat := Nat.not_lt.mpr (Nat.le_of_lt_succ a.isLt)
  have hpc : pcOutOfRange i s = false := by
    unfold pcOutOfRange
    rw [hnext, decide_eq_false ha, Bool.false_or]
    split
    · exact decide_eq_false (Nat.not_lt.mpr (hreturn _ rfl))
    · rfl
  rw [exec_commits hown hpc, hnext, BitVec.ofNat_toNat, BitVec.setWidth_eq]

/-- RET on a stack that is not empty (R101). -/
theorem exec_ret {s : State} (h : s.sp ≠ 0) :
    exec .ret s = .next { s with sp := s.sp - 1, pc := s.stackRead (s.sp - 1) } :=
  exec_goes_to_address ((ownFault_ret_eq_none_iff s).mpr h) rfl nofun

/-- CALL on a stack that is not full, with a return address in range (R103). -/
theorem exec_call {s : State} (nnn : Addr) (hsp : s.sp.toNat < 16) (hpc : s.pc.toNat + 2 ≤ 0xFFF) :
    exec (.call nnn) s = .next { s.stackWrite s.sp (s.pc + 2) with sp := s.sp + 1, pc := nnn } :=
  exec_goes_to_address ((ownFault_call_eq_none_iff nnn s).mpr hsp) rfl fun _ _ => hpc

/-- Settles O34: the target is an address. -/
theorem jpSetsThePc : Obligations.JpSetsThePc :=
  fun _ _ => exec_goes_to_address rfl rfl nofun

/-! ### RET and CALL -/

theorem State.stackRead_of_lt (s : State) {p : BitVec 5} (h : p.toNat < 16) : s.stackRead p = s.stack[p.toNat] := by
  simp only [State.stackRead, stackSlot_of_lt h]

theorem State.stackWrite_of_lt (s : State) {p : BitVec 5} (a : Addr) (h : p.toNat < 16) :
    s.stackWrite p a = { s with stack := s.stack.set p.toNat a h } := by
  simp only [State.stackWrite, stackSlot_of_lt h]

/-- An entry of the call stack is read off the stack alone. -/
theorem State.stackRead_congr {s t : State} (h : t.stack = s.stack) (p : BitVec 5) : t.stackRead p = s.stackRead p := by
  unfold State.stackRead; rw [h]

/-- Settles O36: the RET reads the slot that the CALL wrote, since its pointer is one above it. -/
theorem retAfterCallReturnsBehindTheCall : Obligations.RetAfterCallReturnsBehindTheCall := by
  intro s t u nnn hsp hpc hcall husp hustack
  rw [exec_call nnn hsp (by omega)] at hcall
  cases hcall
  change u.sp = s.sp + 1 at husp
  change u.stack = (s.stackWrite s.sp (s.pc + 2)).stack at hustack
  have hback : u.sp - 1 = s.sp := by rw [husp, BitVec.add_sub_cancel]
  refine ⟨_, exec_ret (by bv_omega), ?_, hback, rfl⟩
  change u.stackRead (u.sp - 1) = s.pc + 2
  rw [hback, State.stackRead_congr hustack, State.stackRead_stackWrite_same]

/-- Settles O33: the popped entry is the one below the pointer, and the empty stack is the own fault of a RET. -/
theorem retPopsTheReturnAddress : Obligations.RetPopsTheReturnAddress := by
  intro s _
  refine ⟨fun h0 => ?_, fun ⟨hpos, hlt⟩ => ?_⟩
  · exact (instructionFaultsInPriorityOrder .ret s).1 .stackUnderflow (if_pos h0)
  · have hslot : (s.sp - 1).toNat = s.sp.toNat - 1 := by bv_omega
    rw [exec_ret (by bv_omega), State.stackRead_of_lt s (by omega)]
    simp only [hslot]

/-- Settles O35: the full stack is the CALL's own fault and comes first, then its return address. -/
theorem callPushesTheNextAddress : Obligations.CallPushesTheNextAddress := by
  intro s nnn _
  obtain ⟨hfault, hrange⟩ := instructionFaultsInPriorityOrder (.call nnn) s
  refine ⟨fun hfull => ?_, fun hsp hpc => ?_, fun hsp hpc => ?_⟩
  · exact hfault .stackOverflow (by simp [ownFault, hfull])
  · exact hrange ((ownFault_call_eq_none_iff nnn s).mpr hsp) (by simp [pcOutOfRange, hpc])
  · rw [exec_call nnn hsp hpc, State.stackWrite_of_lt s _ hsp]

/-! ### Skips and the jump with an offset -/

/-- Settles O37: SE skips where its comparison holds, SNE where it fails. -/
theorem skipsCompareAndSkip : Obligations.SkipsCompareAndSkip := by
  intro s x y kk
  refine ⟨?seImmediate, ?sneImmediate, ?seRegisters, ?sneRegisters⟩
  case seImmediate => exact completesSkip_of_nextPc rfl (Bool.or_false _) rfl (if_pos ·) (if_neg ·)
  case sneImmediate => exact completesSkip_of_nextPc rfl (Bool.or_false _) rfl (if_neg ·) (if_pos <| not_not.mp ·)
  case seRegisters => exact completesSkip_of_nextPc rfl (Bool.or_false _) rfl (if_pos ·) (if_neg ·)
  case sneRegisters => exact completesSkip_of_nextPc rfl (Bool.or_false _) rfl (if_neg ·) (if_pos <| not_not.mp ·)

/-- Settles O38: the sum is compared with 0xFFF before it is cut to 12 bits. -/
theorem jpV0AddsRegisterZero : Obligations.JpV0AddsRegisterZero := by
  intro s nnn
  refine ⟨fun hle => ?_, fun hgt => ?_⟩
  · exact exec_commits rfl ((Bool.or_false _).trans (decide_eq_false (Nat.not_lt.mpr hle)))
  · exact (instructionFaultsInPriorityOrder (.jpV0Nnn nnn) s).2 rfl ((Bool.or_false _).trans (decide_eq_true hgt))

end Sys2Proof.Machine

/-! PROOFS. Family 42_alu: which instructions read the sample of the inputs, and the register instructions as exact
next states. -/

namespace Sys2Proof.Machine

/-! ### What reads the sample of the inputs -/

/-- The instructions that read the key vector (R180). -/
def ReadsKeys (i : Instr) : Prop := ∃ x, i = .skpVx x ∨ i = .sknpVx x ∨ i = .ldVxK x

/-- The instruction that reads the random byte (R140). -/
def ReadsRnd (i : Instr) : Prop := ∃ x kk, i = .rndVxKk x kk

/-- The state with another list of inputs; by R29 the list is no state of the core. -/
def State.withInputs (s : State) (l : List StepInput) : State := { s with inputs := l }

@[simp] theorem State.withInputs_kwActive (s : State) (l : List StepInput) :
    (s.withInputs l).kwActive = s.kwActive := rfl
@[simp] theorem State.withInputs_kwSnap (s : State) (l : List StepInput) :
    (s.withInputs l).kwSnap = s.kwSnap := rfl
@[simp] theorem State.withInputs_wordAtPc (s : State) (l : List StepInput) :
    (s.withInputs l).wordAtPc = s.wordAtPc := rfl
@[simp] theorem State.withInputs_nextInstr (s : State) (l : List StepInput) :
    (s.withInputs l).nextInstr = s.nextInstr := rfl

theorem State.writeByte_withInputs (s : State) (l : List StepInput) (a : Nat) (v : Byte) :
    (s.withInputs l).writeByte a v = (s.writeByte a v).withInputs l := by
  unfold State.writeByte
  split <;> rfl

theorem State.writeBytes_withInputs (bs : List Byte) (l : List StepInput) (s : State) (a : Nat) :
    (s.withInputs l).writeBytes a bs = (s.writeBytes a bs).withInputs l := by
  induction bs generalizing s a with
  | nil => rfl
  | cons b bs ih => simp only [State.writeBytes, State.writeByte_withInputs, ih]

theorem State.readBytes_withInputs (n : Nat) (l : List StepInput) (s : State) (a : Nat) :
    (s.withInputs l).readBytes a n = s.readBytes a n := by
  induction n generalizing a with
  | zero => rfl
  | succ n ih => simp only [State.readBytes, ih]; rfl

theorem State.setRegsFrom_withInputs (bs : List Byte) (l : List StepInput) (s : State) (k : Nat) :
    (s.withInputs l).setRegsFrom k bs = (s.setRegsFrom k bs).withInputs l := by
  induction bs generalizing s k with
  | nil => rfl
  | cons b bs ih => exact ih (s.setV (BitVec.ofNat 4 k) b) (k + 1)

section OneInstruction

variable {i : Instr} {s : State} {l : List StepInput}

/-- The writes of an instruction depend on the list of inputs only by what the instruction reads of the sample. -/
theorem effect_withInputs (hkeys : ReadsKeys i → (s.withInputs l).keys = s.keys)
    (hrnd : ReadsRnd i → (s.withInputs l).rnd = s.rnd) :
    effect i (s.withInputs l) = (effect i s).withInputs l := by
  cases i <;> try rfl
  case rndVxKk x kk =>
    simp only [effect, hrnd ⟨x, kk, rfl⟩]
    rfl
  case ldVxK x =>
    simp only [effect, hkeys ⟨x, .inr (.inr rfl)⟩, State.withInputs_kwActive, State.withInputs_kwSnap]
    split
    · split <;> rfl
    · rfl
  case drwVxVyN x y n =>
    simp only [effect, State.readBytes_withInputs]
    rfl
  case ldBVx x => exact State.writeBytes_withInputs _ l s _
  case ldMemVx x => exact State.writeBytes_withInputs _ l s _
  case ldVxMem x =>
    simp only [effect, State.readBytes_withInputs, State.setRegsFrom_withInputs]
    rfl

/-- The next pc depends on the inputs by the keys alone (R85). -/
theorem nextPc_withInputs (hkeys : ReadsKeys i → (s.withInputs l).keys = s.keys) :
    nextPc i (s.withInputs l) = nextPc i s := by
  cases i <;> try rfl
  case skpVx x => simp only [nextPc, hkeys ⟨x, .inl rfl⟩]; rfl
  case sknpVx x => simp only [nextPc, hkeys ⟨x, .inr (.inl rfl)⟩]; rfl
  case ldVxK x => simp only [nextPc, hkeys ⟨x, .inr (.inr rfl)⟩]; rfl

/-- No condition of R201 but PcRange, by the next pc, looks at the inputs. -/
theorem instrFault_withInputs (hkeys : ReadsKeys i → (s.withInputs l).keys = s.keys) :
    instrFault i (s.withInputs l) = instrFault i s := by
  have hown : ownFault i (s.withInputs l) = ownFault i s := by cases i <;> rfl
  unfold instrFault pcOutOfRange
  rw [hown, nextPc_withInputs hkeys]
  rfl

end OneInstruction

section OneStep

variable {s : State} {l : List StepInput}
  (hkeys : ∀ i, s.nextInstr = some i → ReadsKeys i → (s.withInputs l).keys = s.keys)
  (hrnd : ∀ i, s.nextInstr = some i → ReadsRnd i → (s.withInputs l).rnd = s.rnd)

include hkeys

/-- A step faults alike for every sample, but for what its instruction reads of it. -/
theorem stepFault_withInputs (hs : s.halted = false) : stepFault (s.withInputs l) = stepFault s := by
  cases hw : s.wordAtPc with
  | none => simp [stepFault, hw]
  | some w =>
    cases hd : decodeWord w with
    | error r =>
      rw [stepFault_of_rejected hw hd]
      exact stepFault_of_rejected hw hd
    | ok i =>
      have hi : s.nextInstr = some i := by simp [State.nextInstr, hs, hw, hd, Except.toOption]
      rw [stepFault_of_nextInstr hi, ← instrFault_withInputs (hkeys i hi)]
      exact stepFault_of_nextInstr hi

include hrnd

theorem committed_withInputs : committed (s.withInputs l) = (committed s).withInputs l := by
  unfold committed
  rw [State.withInputs_nextInstr]
  split
  next i hi =>
    have heffect : effect i (s.withInputs l).clearCycleFlags = (effect i s.clearCycleFlags).withInputs l :=
      effect_withInputs (s := s.clearCycleFlags) (hkeys i hi) (hrnd i hi)
    rw [heffect, nextPc_withInputs (hkeys i hi)]
    rfl
  next => rfl

/-- A step gives the same core for every sample, but for what its instruction reads of it. -/
theorem stepTo_withInputs (rest : List StepInput) :
    (stepTo (s.withInputs l)).withInputs rest = (stepTo s).withInputs rest := by
  cases hs : s.halted with
  | true =>
    have hs' : (s.withInputs l).halted = true := hs
    rw [stepTo_eq (step_halted hs'), stepTo_eq (step_halted hs)]
    rfl
  | false =>
    have hs' : (s.withInputs l).halted = false := hs
    rw [stepTo_eq (step_running hs'), stepTo_eq (step_running hs), stepFault_withInputs hkeys hs,
      committed_withInputs hkeys hrnd]
    cases stepFault s <;> rfl

end OneStep

/-- Settles O31: where the two samples differ, the step's instruction does not read them. -/
theorem inputsReadOnlyByTheirInstructions : Obligations.InputsReadOnlyByTheirInstructions := by
  intro s a b rest
  refine ⟨rfl, rfl, fun hrnd hnoKeys => ?_, fun hkeys hnoRnd => ?_⟩
  · refine stepTo_withInputs (s := s.withInputs (b :: rest)) (l := a :: rest) ?_ (fun _ _ _ => hrnd) rest
    rintro i hi ⟨x, hx⟩
    obtain ⟨hskp, hsknp, hwait⟩ := hnoKeys x
    rcases hx with rfl | rfl | rfl
    · exact absurd hi hskp
    · exact absurd hi hsknp
    · exact absurd hi hwait
  · refine stepTo_withInputs (s := s.withInputs (b :: rest)) (l := a :: rest) (fun _ _ _ => hkeys) ?_ rest
    rintro i hi ⟨x, kk, rfl⟩
    exact absurd hi (hnoRnd x kk)

/-! ### The register instructions -/

theorem flagByte_decide (p : Prop) [Decidable p] : flagByte (decide p) = if p then 1 else 0 := by
  simp only [flagByte, decide_eq_true_eq]

/-- A bit of a byte, as a flag holds it. -/
theorem flagByte_getLsbD (a : Byte) (k : Nat) : flagByte (a.getLsbD k) = BitVec.ofNat 8 (a.toNat / 2 ^ k % 2) := by
  rw [← Nat.toNat_testBit, BitVec.testBit_toNat]
  cases a.getLsbD k <;> rfl

theorem add_eq_ofNat_mod (a b : Byte) : a + b = BitVec.ofNat 8 ((a.toNat + b.toNat) % 256) := by
  bv_omega

theorem sub_eq_ofNat_mod (a b : Byte) : a - b = BitVec.ofNat 8 ((256 + a.toNat - b.toNat) % 256) := by
  bv_omega

theorem shiftRight_one_eq_ofNat (a : Byte) : a >>> 1 = BitVec.ofNat 8 (a.toNat / 2) := by
  bv_omega

theorem shiftLeft_one_eq_ofNat (a : Byte) : a <<< 1 = BitVec.ofNat 8 (a.toNat * 2 % 256) := by
  bv_omega

theorem shiftedOutRight_eq (a : Byte) : shiftedOutRight a = BitVec.ofNat 8 (a.toNat % 2) := by
  rw [shiftedOutRight, flagByte_getLsbD, Nat.pow_zero, Nat.div_one]

theorem shiftedOutLeft_eq (a : Byte) : shiftedOutLeft a = BitVec.ofNat 8 (a.toNat / 128) := by
  have hbit : a.toNat / 2 ^ 7 % 2 = a.toNat / 128 := Nat.mod_eq_of_lt (by omega)
  rw [shiftedOutLeft, flagByte_getLsbD, hbit]

/-- The result and then the flag, as one register file (R11). -/
theorem setV_setVF_eq_regsWithFlag {s : State} {x : RegIx} {v v' flag flag' : Byte} (hv : v = v')
    (hflag : flag = flag') : (s.setV x v).setV 15 flag = { s with regs := regsWithFlag s x v' flag' } := by
  rw [hv, hflag]
  rfl

/-- Settles O39: each is one register write; ADD's sum is taken modulo 256. -/
theorem loadsAndBitwiseWriteNoFlag : Obligations.LoadsAndBitwiseWriteNoFlag := by
  intro s x y kk
  refine ⟨?load, ?addImmediate, ?move, ?or, ?and, ?xor⟩
  case addImmediate =>
    rw [← add_eq_ofNat_mod]
    exact completesNext2_of_effect rfl rfl (Bool.or_false _) rfl
  all_goals exact completesNext2_of_effect rfl rfl (Bool.or_false _) rfl

/-- Settles O40: the carry is that of the untruncated sum. -/
theorem addWritesSumThenCarry : Obligations.AddWritesSumThenCarry :=
  fun _ _ _ => completesNext2_of_effect rfl rfl (Bool.or_false _)
    (setV_setVF_eq_regsWithFlag (add_eq_ofNat_mod _ _) (flagByte_decide _))

/-- Settles O41: SUBN is SUB with its operands exchanged. -/
theorem subtractsWriteDifferenceThenStrictFlag : Obligations.SubtractsWriteDifferenceThenStrictFlag := by
  intro s x y
  refine ⟨completesNext2_of_effect rfl rfl (Bool.or_false _) ?sub,
    completesNext2_of_effect rfl rfl (Bool.or_false _) ?subn⟩
  case sub => exact setV_setVF_eq_regsWithFlag (sub_eq_ofNat_mod _ _) (flagByte_decide _)
  case subn => exact setV_setVF_eq_regsWithFlag (sub_eq_ofNat_mod _ _) (flagByte_decide _)

/-- Settles O42: the bit shifted out is bit 0 for SHR and bit 7 for SHL. -/
theorem shiftsMoveOneBitThenWriteItToVF : Obligations.ShiftsMoveOneBitThenWriteItToVF := by
  intro s x
  refine ⟨completesNext2_of_effect rfl rfl (Bool.or_false _) ?right,
    completesNext2_of_effect rfl rfl (Bool.or_false _) ?left⟩
  case right => exact setV_setVF_eq_regsWithFlag (shiftRight_one_eq_ofNat _) (shiftedOutRight_eq _)
  case left => exact setV_setVF_eq_regsWithFlag (shiftLeft_one_eq_ofNat _) (shiftedOutLeft_eq _)

/-- Settles O43: the sample at the head of the inputs is the one that RND reads. -/
theorem rndMasksTheRandomInput : Obligations.RndMasksTheRandomInput :=
  fun _ _ _ => ⟨completesNext2_of_effect rfl rfl (Bool.or_false _) rfl,
    fun _ _ _ => ⟨rfl, completesNext2_of_effect rfl rfl (Bool.or_false _) rfl⟩⟩

end Sys2Proof.Machine

/-! PROOFS. Family 43_index_memory: LD I, ADD I and LD F as exact next states, the two stores at I with every byte
that they write and leave, and the load of registers from I. -/

namespace Sys2Proof.Machine

/-- DataRange is code 5, and an instruction that raises it has no effect (R203). -/
theorem exec_of_dataRange {i : Instr} {s : State} (h : ownFault i s = some .dataRange) :
    exec i s = .next (faulted s 5) :=
  (instructionFaultsInPriorityOrder i s).1 .dataRange h

/-! ### The stores -/

/-- After a store of the three digits of a byte at `a`, they stand at `a`, `a + 1` and `a + 2`, and every other byte is
kept (R153). -/
theorem readByte_writeBytes_bcdDigits (s : State) (v : Byte) {a : Nat} (h : a + 2 ≤ 0xFFF) (k : Nat) :
    (s.writeBytes a (bcdDigits v)).readByte k =
      if k = a then BitVec.ofNat 8 (v.toNat / 100)
      else if k = a + 1 then BitVec.ofNat 8 (v.toNat / 10 % 10)
      else if k = a + 2 then BitVec.ofNat 8 (v.toNat % 10)
      else s.readByte k := by
  have hlen : (bcdDigits v).length = 3 := rfl
  have hdigit (j : Nat) (hj : j < 3) : (s.writeBytes a (bcdDigits v)).readByte (a + j) = (bcdDigits v)[j] :=
    State.readByte_writeBytes_inside (bcdDigits v) s a j hj (by omega)
  split_ifs with h0 h1 h2
  · rw [h0]; exact hdigit 0 (by decide)
  · rw [h1]; exact hdigit 1 (by decide)
  · rw [h2]; exact hdigit 2 (by decide)
  · exact State.readByte_writeBytes_outside (bcdDigits v) s a k (by omega)

/-- Settles O45: the digits are stored when all three addresses are in range, and DataRange is raised otherwise. -/
theorem ldBStoresThreeDigits : Obligations.LdBStoresThreeDigits := by
  intro s x
  refine ⟨fun hgt => exec_of_dataRange (if_pos hgt), fun hle => ?_⟩
  refine ⟨_, completesNext2_of_effect (if_neg (Nat.not_lt.mpr hle)) rfl (Bool.or_false _)
    (State.writeBytes_eq_withMem (bcdDigits (s.V x)) s s.idx.toNat), fun a => ?_⟩
  rw [← State.writeBytes_eq_withMem]
  exact readByte_writeBytes_bcdDigits s (s.V x) hle a

/-- LD [I], Vx keeps the bytes below I and those above I + x (R154). -/
theorem readByte_effect_ldMemVx_outside (s : State) (x : RegIx) {a : Nat}
    (h : a < s.idx.toNat ∨ s.idx.toNat + x.toNat < a) : (effect (.ldMemVx x) s).readByte a = s.readByte a := by
  have hlen := State.regsUpTo_length s x
  exact State.readByte_writeBytes_outside (s.regsUpTo x) s s.idx.toNat a (by omega)

/-- Settles O46: the store of V0 to Vx changes only memory, and there only the x + 1 bytes from I. -/
theorem ldMemStoresRegistersInOrder : Obligations.LdMemStoresRegistersInOrder := by
  intro s x
  refine ⟨fun hgt => exec_of_dataRange (if_pos hgt), fun hle => ?_⟩
  have hmem : effect (.ldMemVx x) s = { s with mem := (effect (.ldMemVx x) s).mem } :=
    State.writeBytes_eq_withMem (s.regsUpTo x) s s.idx.toNat
  refine ⟨_, completesNext2_of_effect (if_neg (Nat.not_lt.mpr hle)) rfl (Bool.or_false _) hmem, ?_⟩
  rw [← hmem]
  exact ⟨fun k hk => readByte_effect_ldMemVx s hk hle, fun a ha => readByte_effect_ldMemVx_outside s x ha⟩

/-! ### The load -/

/-- LD Vx, [I] gives register k the byte at I + k for every k up to x, and keeps the others (R155). -/
theorem regs_effect_ldVxMem (s : State) (x : RegIx) (k : Nat) (hk : k < 16) :
    (effect (.ldVxMem x) s).regs[k] = if k ≤ x.toNat then s.readByte (s.idx.toNat + k) else s.regs[k] := by
  have hlen := State.readBytes_length s (x.toNat + 1) s.idx.toNat
  have hx := x.isLt
  refine (State.setRegsFrom_getElem (s.readBytes s.idx.toNat (x.toNat + 1)) s 0 (by omega) k hk).trans ?_
  by_cases hkx : k ≤ x.toNat
  · rw [dif_pos (by omega), if_pos hkx]
    exact State.readBytes_getElem s (x.toNat + 1) s.idx.toNat k (by omega)
  · rw [dif_neg (by omega), if_neg hkx]

/-- Settles O47: the load changes only the register file, and there only V0 to Vx. -/
theorem ldRegsLoadsMemoryInOrder : Obligations.LdRegsLoadsMemoryInOrder := by
  intro s x
  refine ⟨fun hgt => exec_of_dataRange (if_pos hgt), fun hle => ?_⟩
  have hregs : effect (.ldVxMem x) s = { s with regs := (effect (.ldVxMem x) s).regs } :=
    State.setRegsFrom_eq_withRegs (s.readBytes s.idx.toNat (x.toNat + 1)) s 0
  exact ⟨_, completesNext2_of_effect (if_neg (Nat.not_lt.mpr hle)) rfl (Bool.or_false _) hregs,
    regs_effect_ldVxMem s x⟩

/-! ### The index register -/

/-- Settles O44: only ADD I has a fault of its own, when the untruncated sum is above 0xFFF. -/
theorem indexInstructionsSetI : Obligations.IndexInstructionsSetI := by
  intro s x nnn
  refine ⟨?loadAddress, fun hle => ?addInRange, fun hgt => ?addAbove, ?loadGlyph⟩
  case loadAddress => exact completesNext2_of_effect rfl rfl (Bool.or_false _) rfl
  case addInRange => exact completesNext2_of_effect (if_neg (Nat.not_lt.mpr hle)) rfl (Bool.or_false _) rfl
  case addAbove => exact (instructionFaultsInPriorityOrder (.addIVx x) s).1 .indexRange (if_pos hgt)
  case loadGlyph => exact completesNext2_of_effect rfl rfl (Bool.or_false _) rfl

end Sys2Proof.Machine

/-! PROOFS. Family 44_display: CLS and DRW as exact next states with every pixel of the framebuffer, and the second draw
of one sprite. -/

namespace Sys2Proof.Machine

/-- Settles O49: the framebuffer that CLS writes has no set pixel. -/
theorem clsClearsEveryPixel : Obligations.ClsClearsEveryPixel :=
  fun _ => ⟨_, completesNext2_of_effect rfl rfl (Bool.or_false _) rfl, pixel_zero⟩

/-! ### One draw -/

/-- Drawing meets a set pixel: some pixel is covered by the sprite and set before it (R171). -/
def Collides (s : State) (vx vy : RegIx) (n : Nibble) : Prop :=
  ∃ y x, y < 32 ∧ x < 64 ∧ spriteCovers s vx vy n.toNat y x ∧ s.FB y x = true

theorem flagByte_eq_one_iff (b : Bool) : flagByte b = 1 ↔ b = true := by
  cases b <;> decide

theorem flagByte_eq_zero_iff (b : Bool) : flagByte b = 0 ↔ ¬b = true := by
  cases b <;> decide

/-- DRW Vx, Vy, n has the fault DataRange only, when it reads a row and the last row lies above 0xFFF. -/
theorem ownFault_drw_eq_none_iff (vx vy : RegIx) (n : Nibble) (s : State) :
    ownFault (.drwVxVyN vx vy n) s = none ↔ (1 ≤ n.toNat → s.idx.toNat + n.toNat - 1 ≤ 0xFFF) := by
  simp [ownFault]

section OneDraw

variable (s : State) (vx vy : RegIx) (n : Nibble)

/-- DRW writes the framebuffer, VF and the redraw flag only. -/
theorem effect_drw_eq : effect (.drwVxVyN vx vy n) s =
    { s with
      fb := (effect (.drwVxVyN vx vy n) s).fb
      regs := s.regs.set 15 ((effect (.drwVxVyN vx vy n) s).V 15)
      redraw := true } := by
  have hVF : (effect (.drwVxVyN vx vy n) s).V 15 = _ := State.V_setV_same s 15 _
  rw [hVF]
  rfl

/-- DRW flips the covered pixels and no other. -/
theorem FB_effect_drw {y x : Nat} (hy : y < 32) (hx : x < 64) :
    (effect (.drwVxVyN vx vy n) s).FB y x = true ↔ ¬(s.FB y x = true ↔ spriteCovers s vx vy n.toNat y x) :=
  (drawn_spec s vx vy n).1 y x hy hx

/-- VF is the collision, as a flag holds it (R11). -/
theorem effect_drw_VF :
    ∃ hit : Bool, (effect (.drwVxVyN vx vy n) s).V 15 = flagByte hit ∧ (hit = true ↔ Collides s vx vy n) :=
  ⟨_, State.V_setV_same s 15 _, (drawn_spec s vx vy n).2⟩

theorem effect_drw_VF_eq_one_iff : (effect (.drwVxVyN vx vy n) s).V 15 = 1 ↔ Collides s vx vy n := by
  obtain ⟨hit, hVF, hcollides⟩ := effect_drw_VF s vx vy n
  rw [hVF, flagByte_eq_one_iff, hcollides]

theorem effect_drw_VF_eq_zero_iff : (effect (.drwVxVyN vx vy n) s).V 15 = 0 ↔ ¬Collides s vx vy n := by
  obtain ⟨hit, hVF, hcollides⟩ := effect_drw_VF s vx vy n
  rw [hVF, flagByte_eq_zero_iff, hcollides]

end OneDraw

/-- Settles O50: without its own fault, DRW ends with `next(2)` and the writes of `effect_drw_eq`. -/
theorem drwXorsTheSpriteAndReportsCollision : Obligations.DrwXorsTheSpriteAndReportsCollision := by
  intro s vx vy n
  refine ⟨fun hn hgt => exec_of_dataRange (if_pos ⟨hn, hgt⟩), fun hrange => ?_⟩
  have hown := (ownFault_drw_eq_none_iff vx vy n s).mpr hrange
  exact ⟨_, _, completesNext2_of_effect hown rfl (Bool.or_false _) (effect_drw_eq s vx vy n),
    fun _ _ => FB_effect_drw s vx vy n, (effect_drw_VF_eq_one_iff s vx vy n).mpr,
    (effect_drw_VF_eq_zero_iff s vx vy n).mpr⟩

/-! ### The second draw -/

/-- Two framebuffers with the same pixels are equal. -/
theorem eq_of_pixel_eq {f g : Vector (BitVec 64) 32} (h : ∀ y x, y < 32 → x < 64 → pixel f y x = pixel g y x) :
    f = g := by
  apply Vector.ext
  intro y hy
  apply BitVec.eq_of_getLsbD_eq
  intro x hx
  simpa only [pixel, Nat.mod_eq_of_lt hy, Nat.mod_eq_of_lt hx] using h y x hy hx

theorem spriteCovers_bounds {s : State} {vx vy : RegIx} {n y x : Nat} (h : spriteCovers s vx vy n y x) :
    y < 32 ∧ x < 64 := by
  obtain ⟨r, c, -, -, rfl, rfl, -⟩ := h
  exact ⟨Nat.mod_lt _ (by decide), Nat.mod_lt _ (by decide)⟩

theorem exec_of_instrFault_none {i : Instr} {s : State} (h : instrFault i s = none) :
    exec i s = .next { effect i s with pc := BitVec.ofNat 12 (nextPc i s) } := by
  rw [exec_eq, outcomeState, h]

/-- An instruction that leaves the core running met no fault. -/
theorem instrFault_none_of_exec {i : Instr} {s t : State} (h : exec i s = .next t) (ht : t.halted = false) :
    instrFault i s = none := by
  rw [exec_eq, outcomeState] at h
  cases hf : instrFault i s with
  | none => rfl
  | some f =>
    rw [hf] at h
    cases h
    cases ht

section SecondDraw

/-- The state that the second draw starts from: the writes of the first, at the same pc. -/
def afterDraw (s : State) (vx vy : RegIx) (n : Nibble) : State :=
  { effect (.drwVxVyN vx vy n) s with pc := s.pc }

variable (s : State) {vx vy : RegIx} (n : Nibble)

theorem instrFault_afterDraw (vx vy : RegIx) :
    instrFault (.drwVxVyN vx vy n) (afterDraw s vx vy n) = instrFault (.drwVxVyN vx vy n) s := rfl

variable (hvx : vx ≠ 15) (hvy : vy ≠ 15)

include hvx hvy

/-- DRW changes nothing that places the sprite, unless a coordinate register is VF. -/
theorem spriteCovers_afterDraw (y x : Nat) :
    spriteCovers (afterDraw s vx vy n) vx vy n.toNat y x ↔ spriteCovers s vx vy n.toNat y x := by
  have hV (k : RegIx) (hk : k ≠ 15) : (afterDraw s vx vy n).V k = s.V k :=
    (effect_V (.drwVxVyN vx vy n) s k).resolve_right hk
  unfold spriteCovers
  rw [hV vx hvx, hV vy hvy]
  rfl

/-- A pixel flipped twice, or not at all, has its old value. -/
theorem fb_effect_drw_afterDraw : (effect (.drwVxVyN vx vy n) (afterDraw s vx vy n)).fb = s.fb := by
  refine eq_of_pixel_eq fun y x hy hx => Bool.eq_iff_iff.mpr ?_
  have hfirst := FB_effect_drw s vx vy n hy hx
  have hsecond := FB_effect_drw (afterDraw s vx vy n) vx vy n hy hx
  rw [spriteCovers_afterDraw s n hvx hvy] at hsecond
  change State.FB (effect (.drwVxVyN vx vy n) (afterDraw s vx vy n)) y x = true ↔ s.FB y x = true
  change State.FB (afterDraw s vx vy n) y x = true ↔ _ at hfirst
  rw [hsecond, hfirst]
  by_cases hcov : spriteCovers s vx vy n.toNat y x
  · simp only [hcov, iff_true, not_not]
  · simp only [hcov, iff_false, not_not]

/-- Where the first draw met no set pixel, it set every covered one, and the second draw meets them. -/
theorem collides_afterDraw (hno : ¬Collides s vx vy n) (hset : ∃ y x, spriteCovers s vx vy n.toNat y x) :
    Collides (afterDraw s vx vy n) vx vy n := by
  obtain ⟨y, x, hcov⟩ := hset
  obtain ⟨hy, hx⟩ := spriteCovers_bounds hcov
  have hclear : ¬s.FB y x = true := fun hp => hno ⟨y, x, hy, hx, hcov, hp⟩
  have hdrawn : (afterDraw s vx vy n).FB y x = true :=
    (FB_effect_drw s vx vy n hy hx).mpr fun h => hclear (h.mpr hcov)
  exact ⟨y, x, hy, hx, (spriteCovers_afterDraw s n hvx hvy y x).mpr hcov, hdrawn⟩

end SecondDraw

/-- Settles O51: the second draw meets no fault where the first met none, and covers the same pixels. -/
theorem drawingTwiceRestoresTheFramebuffer : Obligations.DrawingTwiceRestoresTheFramebuffer := by
  intro s t u vx vy n hvx hvy hfirst ht hsecond
  have hfault : instrFault (.drwVxVyN vx vy n) s = none := instrFault_none_of_exec hfirst ht
  rw [exec_of_instrFault_none hfault] at hfirst
  cases hfirst
  change exec (.drwVxVyN vx vy n) (afterDraw s vx vy n) = .next u at hsecond
  rw [exec_of_instrFault_none ((instrFault_afterDraw s n vx vy).trans hfault)] at hsecond
  cases hsecond
  refine ⟨fb_effect_drw_afterDraw s n hvx hvy, fun hzero hset => ?_⟩
  have hno := (effect_drw_VF_eq_zero_iff s vx vy n).mp hzero
  exact (effect_drw_VF_eq_one_iff _ vx vy n).mpr (collides_afterDraw s n hvx hvy hno hset)

end Sys2Proof.Machine

/-! PROOFS. Family 45_keypad: LD Vx, K as an exact next state, runs of waiting steps, and the key skips. -/

namespace Sys2Proof.Machine

/-! ### LD Vx, K -/

/-- Entry: LD Vx, K without an active latch takes the snapshot (R183). -/
theorem effect_ldVxK_of_inactive {s : State} (x : RegIx) (h : s.kwActive = false) :
    effect (.ldVxK x) s = { s with kwSnap := s.keys, kwActive := true } := by
  simp [effect, h]

/-- Release: `k` is the least key that differs from the snapshot (R183). -/
theorem effect_ldVxK_of_least_changed_key {s : State} (x : RegIx) {k : Nat} (hact : s.kwActive = true)
    (hk : firstSetBit (s.keys ^^^ s.kwSnap) = some k) :
    effect (.ldVxK x) s = { s.setV x (BitVec.ofNat 8 k) with kwActive := false } := by
  simp [effect, hact, hk]

/-- An LD Vx, K after which the latch is active stays at its address, so it raises no fault (R183). -/
theorem exec_ldVxK_of_waiting {s t : State} {x : RegIx} (heff : effect (.ldVxK x) s = t) (ht : t.kwActive = true)
    (hpc : t.pc = s.pc) : exec (.ldVxK x) s = .next t := by
  subst heff
  rw [exec_goes_to_address rfl (nextPc_of_waiting ht) nofun, ← hpc]

/-- A released LD Vx, K goes on to the next instruction (R183). -/
theorem nextPc_ldVxK_of_changed_keys {s : State} (x : RegIx) (hact : s.kwActive = true) (hkeys : s.keys ≠ s.kwSnap) :
    nextPc (.ldVxK x) s = s.pc.toNat + 2 :=
  if_pos ⟨hact, hkeys⟩

/-- The least position where two key vectors differ is the first set bit of their exclusive or. -/
theorem firstSetBit_xor_eq_some {a b : Keys} {k : RegIx} (hk : a.getLsbD k.toNat ≠ b.getLsbD k.toNat)
    (hmin : ∀ j : RegIx, j.toNat < k.toNat → a.getLsbD j.toNat = b.getLsbD j.toNat) :
    firstSetBit (a ^^^ b) = some k.toNat := by
  refine firstSetBit_eq_some k.isLt ?_ fun j hj => ?_
  · simpa using hk
  · have hj16 : j < 2 ^ 4 := hj.trans k.isLt
    have hsame := hmin (BitVec.ofNatLT j hj16) hj
    rw [BitVec.toNat_ofNatLT] at hsame
    rw [BitVec.getLsbD_xor, hsame, Bool.xor_self]

/-- Settles O53: entry and waiting stay at the same address, release is an instruction that ends with `next(2)`. -/
theorem waitForKeyReportsTheLeastChangedKey : Obligations.WaitForKeyReportsTheLeastChangedKey := by
  intro s x
  refine ⟨fun hidle => ?entry, fun hact hkeys => ?waiting, fun hact k hk hmin => ?release⟩
  case entry => exact exec_ldVxK_of_waiting (effect_ldVxK_of_inactive x hidle) rfl rfl
  case waiting => exact exec_ldVxK_of_waiting (effect_ldVxK_of_unchanged_keys hact hkeys) hact rfl
  case release =>
    have hkeys : s.keys ≠ s.kwSnap := fun heq => hk (by rw [heq])
    exact completesNext2_of_effect rfl (nextPc_ldVxK_of_changed_keys x hact hkeys) (Bool.or_false _)
      (effect_ldVxK_of_least_changed_key x hact (firstSetBit_xor_eq_some hk hmin))

/-! ### Runs of waiting steps -/

/-- The state after one waiting step: the timers run and the per-cycle flags are the step's own (R87, R183). -/
def State.afterWaitingStep (s : State) : State := s.clearCycleFlags.tickTimers.consumeInput

/-- A step that samples the snapshot again waits: LD Vx, K writes nothing, and the step ends as any other. -/
theorem stepTo_of_waiting {s : State} {x : RegIx} (hi : s.nextInstr = some (.ldVxK x)) (hact : s.kwActive = true)
    (hkeys : s.keys = s.kwSnap) : stepTo s = s.afterWaitingStep := by
  obtain ⟨hs, w, hw, hd⟩ := nextInstr_word hi
  have hexec : exec (.ldVxK x) s.clearCycleFlags = .next s.clearCycleFlags :=
    (waitForKeyReportsTheLeastChangedKey s.clearCycleFlags x).2.1 hact hkeys
  rw [stepTo_eq (step_of_exec hs hw hd hexec), finishStep_of_running (t := s.clearCycleFlags) hs]
  rfl

/-- What `n` waiting steps from `s` leave as it was, and what they count (R183, R190, S6). -/
structure WaitedFrom (s : State) (n : Nat) (t : State) : Prop extends SameData s t where
  pc : t.pc = s.pc
  halted : t.halted = s.halted
  cause : t.cause = s.cause
  dt : t.dt.toNat = s.dt.toNat - n
  st : t.st.toNat = s.st.toNat - n
  tick : t.tick = s.tick + n
  flags : n ≠ 0 → t.redraw = false ∧ t.unrec = false ∧ (t.tone = true ↔ t.st ≠ 0)

theorem WaitedFrom.refl (s : State) : WaitedFrom s 0 s where
  toSameData := ⟨rfl, rfl, rfl, rfl, rfl, rfl, rfl, rfl, rfl⟩
  pc := rfl
  halted := rfl
  cause := rfl
  dt := rfl
  st := rfl
  tick := rfl
  flags := nofun

/-- One more waiting step: it counts on, and sets the per-cycle flags whatever they were. -/
theorem WaitedFrom.afterWaitingStep {s t : State} {n : Nat} (h : WaitedFrom s n t) :
    WaitedFrom s (n + 1) t.afterWaitingStep where
  toSameData := ⟨h.regs, h.idx, h.sp, h.stack, h.mem, h.fb, h.kwActive, h.kwSnap, h.font⟩
  pc := h.pc
  halted := h.halted
  cause := h.cause
  dt := (countdown_toNat t.dt).trans (congrArg (· - 1) h.dt)
  st := (countdown_toNat t.st).trans (congrArg (· - 1) h.st)
  tick := congrArg (· + 1) h.tick
  flags := fun _ => ⟨rfl, rfl, bne_iff_ne⟩

/-- The core stands at the same instruction after waiting. -/
theorem WaitedFrom.nextInstr {s t : State} {n : Nat} (h : WaitedFrom s n t) : t.nextInstr = s.nextInstr := by
  unfold State.nextInstr
  rw [h.halted, wordAtPc_congr h.pc h.mem h.font]

/-- A step for each sample, all of which show the snapshot: the core waits through them and has taken them. By
induction on the samples, the last step taken last, so that it meets a state that has waited before. -/
theorem waitedFrom_stepsTo {s : State} {x : RegIx} (hi : s.nextInstr = some (.ldVxK x)) (hact : s.kwActive = true)
    (samples : List StepInput) : ∀ rest, s.inputs = samples ++ rest → (∀ a ∈ samples, a.keys = s.kwSnap) →
      WaitedFrom s samples.length (stepsTo samples.length s) ∧ (stepsTo samples.length s).inputs = rest := by
  induction samples using List.reverseRecOn with
  | nil => exact fun rest hinputs _ => ⟨.refl s, hinputs⟩
  | append_singleton samples a ih =>
    intro rest hinputs hsnap
    obtain ⟨hwaited, hnext⟩ := ih (a :: rest) (by simpa using hinputs) fun b hb => hsnap b (by simp [hb])
    have hkeys : (stepsTo samples.length s).keys = (stepsTo samples.length s).kwSnap :=
      calc (stepsTo samples.length s).keys = a.keys := (State.sample_of_inputs hnext).1
        _ = s.kwSnap := hsnap a (by simp)
        _ = (stepsTo samples.length s).kwSnap := hwaited.kwSnap.symm
    have hstep := stepTo_of_waiting (hwaited.nextInstr.trans hi) (hwaited.kwActive.trans hact) hkeys
    rw [List.length_append, List.length_singleton, stepsTo_succ, hstep]
    exact ⟨hwaited.afterWaitingStep, congrArg List.tail hnext⟩

/-- Settles O54: each step of the run meets keys equal to the snapshot, so it waits. -/
theorem waitingStepsFreezeTheProgram : Obligations.WaitingStepsFreezeTheProgram := by
  intro s x samples rest hi hact hinputs hsnap
  obtain ⟨h, hrest⟩ := waitedFrom_stepsTo hi hact samples rest hinputs hsnap
  obtain ⟨hs, -⟩ := nextInstr_word hi
  exact ⟨h.pc, h.regs, h.idx, h.sp, h.stack, h.mem, h.fb, h.kwActive.trans hact, h.kwSnap, h.halted.trans hs, hrest,
    h.dt, h.st, h.cause, h.font, h.tick, fun hne => h.flags (List.length_pos_of_ne_nil hne).ne'⟩

/-! ### The key skips -/

/-- Settles O52: above 15 is the skips' own fault; below, SKP skips where the key is down, SKNP where it is not. -/
theorem keySkipsTestTheSampledKey : Obligations.KeySkipsTestTheSampledKey := by
  intro s x
  refine ⟨fun hgt => ⟨?skpFault, ?sknpFault⟩, fun hle => ⟨?skp, ?sknp⟩⟩
  case skpFault => exact (instructionFaultsInPriorityOrder (.skpVx x) s).1 .keyIndex (if_pos hgt)
  case sknpFault => exact (instructionFaultsInPriorityOrder (.sknpVx x) s).1 .keyIndex (if_pos hgt)
  case skp =>
    exact completesSkip_of_nextPc (if_neg (Nat.not_lt.mpr hle)) (Bool.or_false _) rfl (if_pos ·) (if_neg ·)
  case sknp =>
    exact completesSkip_of_nextPc (if_neg (Nat.not_lt.mpr hle)) (Bool.or_false _) rfl
      (if_neg <| Bool.not_eq_true _ |>.mpr ·) (if_pos <| Bool.eq_true_of_not_eq_false ·)

end Sys2Proof.Machine

/-! PROOFS. Family 46_timers: a loaded timer over many steps, and the three timer instructions with their step. -/

namespace Sys2Proof.Machine

/-! ### A loaded timer -/

/-- What is loaded at `v` by the first step and then counts down at each step holds `v - j` after `j` steps (R191). -/
theorem countdown_run {f : Nat → Nat} {v j : Nat} (hj : 1 ≤ j) (hload : f 1 = v - 1)
    (hcount : ∀ k, 1 ≤ k → k < j → f (k + 1) = f k - 1) : f j = v - j := by
  induction j, hj using Nat.le_induction with
  | base => exact hload
  | succ j hj ih =>
    rw [hcount j hj j.lt_succ_self, ih fun k hk hlt => hcount k hk (hlt.trans j.lt_succ_self), Nat.sub_sub]

section CommittedStep

variable {s t : State} (h : Commits s t)
include h

/-- A committed step counts each timer down from what its instruction wrote (R190). -/
theorem timers_of_commits :
    t.dt.toNat = (match s.nextInstr with | some (.ldDtVx x) => s.V x | _ => s.dt).toNat - 1 ∧
    t.st.toNat = (match s.nextInstr with | some (.ldStVx x) => s.V x | _ => s.st).toNat - 1 := by
  obtain ⟨-, hstep, ht⟩ := h
  exact (timersCountDownOnEveryCommittedStep s t hstep).1 ht

theorem dt_of_commits_ldDtVx {x : RegIx} (hi : s.nextInstr = some (.ldDtVx x)) : t.dt.toNat = (s.V x).toNat - 1 := by
  have hdt := (timers_of_commits h).1
  rwa [hi] at hdt

theorem st_of_commits_ldStVx {x : RegIx} (hi : s.nextInstr = some (.ldStVx x)) : t.st.toNat = (s.V x).toNat - 1 := by
  have hst := (timers_of_commits h).2
  rwa [hi] at hst

theorem dt_of_commits_other (hi : ∀ x, s.nextInstr ≠ some (.ldDtVx x)) : t.dt.toNat = s.dt.toNat - 1 := by
  have hdt := (timers_of_commits h).1
  split at hdt
  next x hx => exact absurd hx (hi x)
  next => exact hdt

theorem st_of_commits_other (hi : ∀ x, s.nextInstr ≠ some (.ldStVx x)) : t.st.toNat = s.st.toNat - 1 := by
  have hst := (timers_of_commits h).2
  split at hst
  next x hx => exact absurd hx (hi x)
  next => exact hst

/-- The tone sounds after a committed step exactly while ST is then nonzero (R192). -/
theorem tone_of_commits : t.tone = true ↔ 0 < t.st.toNat := by
  obtain ⟨hs, hstep, ht⟩ := h
  rw [toneExactlyWhileSoundTimerRuns s t hs hstep, Nat.pos_iff_ne_zero, Ne, Ne, ← BitVec.toNat_inj]
  exact and_iff_right ht

end CommittedStep

/-- Settles O21: the first step loads the timer, every later one counts it down, and the last one sets the tone flag
from it. -/
theorem loadedTimerCountsSteps : Obligations.LoadedTimerCountsSteps := by
  intro s x j hj hcommits
  have hfirst : Commits s (stepsTo 1 s) := hcommits 0 hj
  refine ⟨fun hi hother => ?delay, fun hi hother => ?sound⟩
  case delay =>
    exact countdown_run (f := fun k => (stepsTo k s).dt.toNat) hj (dt_of_commits_ldDtVx hfirst hi)
      fun k hk hlt => dt_of_commits_other (hcommits k hlt) (hother k hk hlt)
  case sound =>
    have hst : (stepsTo j s).st.toNat = (s.V x).toNat - j :=
      countdown_run (f := fun k => (stepsTo k s).st.toNat) hj (st_of_commits_ldStVx hfirst hi)
        fun k hk hlt => st_of_commits_other (hcommits k hlt) (hother k hk hlt)
    have hlast : Commits (stepsTo (j - 1) s) (stepsTo j s) := by
      simpa only [Nat.sub_add_cancel hj] using hcommits (j - 1) (Nat.sub_one_lt_of_lt hj)
    exact ⟨hst, by rw [tone_of_commits hlast, hst, Nat.sub_pos_iff_lt]⟩

/-! ### The timer instructions -/

/-- The step of an instruction that ends with `next(2)` in range: the instruction's writes and the pc, then the timers
count down (R82). -/
theorem step_of_completesNext2 {i : Instr} {s t : State} (hi : s.nextInstr = some i)
    (hcompletes : CompletesNext2 i s.clearCycleFlags t) (ht : t.halted = false) (hpc : s.pc.toNat ≤ 0xFFD) :
    step s = .next { t with pc := s.pc + 2 }.tickTimers.consumeInput := by
  obtain ⟨hs, w, hw, hd⟩ := nextInstr_word hi
  have hrange : s.clearCycleFlags.pc.toNat + 2 ≤ 0xFFF := Nat.add_le_add_right hpc 2
  rw [step_of_exec hs hw hd (hcompletes.1 hrange)]
  exact congrArg _ (finishStep_of_running ht)

theorem ldVxDt_completes (s : State) (x : RegIx) :
    CompletesNext2 (.ldVxDt x) s { s with regs := s.regs.set x.toNat s.dt x.isLt } :=
  completesNext2_of_effect rfl rfl (Bool.or_false _) rfl

theorem ldDtVx_completes (s : State) (x : RegIx) : CompletesNext2 (.ldDtVx x) s { s with dt := s.V x } :=
  completesNext2_of_effect rfl rfl (Bool.or_false _) rfl

theorem ldStVx_completes (s : State) (x : RegIx) : CompletesNext2 (.ldStVx x) s { s with st := s.V x } :=
  completesNext2_of_effect rfl rfl (Bool.or_false _) rfl

/-- Settles O55: each instruction moves one byte, and its step counts the timers down after that. -/
theorem timerInstructionsCopyAroundTheCountdown : Obligations.TimerInstructionsCopyAroundTheCountdown := by
  intro s x
  refine ⟨ldVxDt_completes s x, ldDtVx_completes s x, ldStVx_completes s x,
    fun hpc => ⟨fun hi => ?read, fun hi => ?loadDelay, fun hi => ?loadSound⟩⟩
  all_goals obtain ⟨hs, -⟩ := nextInstr_word hi
  case read =>
    exact ⟨_, step_of_completesNext2 hi (ldVxDt_completes _ x) hs hpc, State.V_setV_same s x s.dt, countdown_toNat _⟩
  case loadDelay => exact ⟨_, step_of_completesNext2 hi (ldDtVx_completes _ x) hs hpc, countdown_toNat _⟩
  case loadSound => exact ⟨_, step_of_completesNext2 hi (ldStVx_completes _ x) hs hpc, countdown_toNat _⟩

end Sys2Proof.Machine

/-! PROOFS. Family 60_exceptions: the state a faulting step leaves, and an instruction's own fault before PcRange. -/

namespace Sys2Proof.Machine

/-- A step that meets a fault leaves the state of R203 with that fault's code, and spends its sample. -/
theorem step_of_stepFault {s : State} {f : CoreFault} (hs : s.halted = false) (hf : stepFault s = some f) :
    step s = .next (faultedStep s (causeCode f)) := by
  rw [step_running hs, hf]

/-- Settles O13: a core that was running halts exactly by a fault, and the state it then has is `faultedStep`. -/
theorem faultingStepCommitsNothing : Obligations.FaultingStepCommitsNothing := by
  intro s t _ hs hstep
  refine ⟨step_halts_iff hs hstep, fun f hf => ?_, rfl, rfl, rfl, rfl, rfl, rfl, rfl⟩
  cases (step_of_stepFault hs hf).symm.trans hstep
  exact ⟨s.inputs.tail, s.tick + 1, rfl⟩

/-- Settles O15: the own fault comes first at every pc, so at 0xFFE too, where the next pc would be out of range. -/
theorem ownFaultWinsOverPcRange : Obligations.OwnFaultWinsOverPcRange := by
  intro s nnn x _
  refine ⟨fun hfull => ?call, fun hkey => ?skp, fun hsum => ?addI⟩
  case call =>
    exact (instructionFaultsInPriorityOrder (.call nnn) s).1 .stackOverflow (if_pos (by simp [hfull]))
  case skp =>
    exact (instructionFaultsInPriorityOrder (.skpVx x) s).1 .keyIndex (if_pos (by simp [hkey]))
  case addI =>
    exact (instructionFaultsInPriorityOrder (.addIVx x) s).1 .indexRange (if_pos hsum)

end Sys2Proof.Machine

/-! PROOFS. Family 70_reset_and_hazards: the load port, which stores a program that fits and refuses any other. -/

namespace Sys2Proof.Machine

/-- A program that fits is stored from 0x200 upward, without an error (R245). -/
theorem State.load_of_fits (s : State) {program : List Byte} (hfits : program.length ≤ 3584) :
    s.load program = ⟨s.writeBytes 0x200 program, false⟩ :=
  if_neg (Nat.not_lt.mpr hfits)

/-- A program that does not fit is refused whole, with the error (R246). -/
theorem State.load_of_tooLong (s : State) {program : List Byte} (hlong : 3584 < program.length) :
    s.load program = ⟨s, true⟩ :=
  if_pos hlong

/-- Settles O58: a load that fits is a store at 0x200, which ends at or below 0xFFF, so every byte is written. -/
theorem loadWritesTheProgramOrNothing : Obligations.LoadWritesTheProgramOrNothing := by
  intro s b
  refine ⟨fun hfits => ⟨(s.writeBytes 0x200 b).mem, ?_⟩, s.load_of_tooLong⟩
  rw [s.load_of_fits hfits, ← State.writeBytes_eq_withMem]
  have hend : 0x200 + b.length ≤ 4096 := Nat.add_le_add_left hfits 0x200
  exact ⟨rfl, fun i hi => State.readByte_writeBytes_inside b s 0x200 i hi hend,
    State.readByte_writeBytes_outside b s 0x200⟩

end Sys2Proof.Machine
